-- ==== Sys2Proof/Config.lean ====
section
/-! DEFINITION. The implementation parameters of the CORE (00_scope.md R5): the fixed ones as constants, and MEM_CAPACITY,
which the spec leaves OPEN, as a record a machine carries (notes/assumptions/1.md). -/

namespace Sys2Proof
namespace Config

/-- `WORD_BITS` (R5, D1). -/
def wordBits : Nat := 64

/-- `WORD_MIN` = -2^63 (R5). -/
abbrev wordMin : Int := -9223372036854775808

/-- `WORD_MAX` = 2^63 - 1 (R5). -/
abbrev wordMax : Int := 9223372036854775807

/-- `ADDR_BITS` (R5, D3). -/
def addrBits : Nat := 64

/-- `ADDR_MAX` = 2^64 - 1 (R5). -/
abbrev addrMax : Nat := 18446744073709551615

/-- `NUM_PARAMS_MAX` (R5). -/
def numParamsMax : Nat := 3

/-- `NUM_MODES` (R5). -/
def numModes : Nat := 3

/-- The greatest decodable instruction word (R72). -/
abbrev instrWordMax : Nat := 99999

/-- The largest MEM_CAPACITY the spec allows, 2^64 (R5). -/
abbrev memCapacityMax : Nat := 18446744073709551616

/-- The OPEN parameter of R5, taken as an argument: every statement about a state is a statement about every capacity.
`memCapacity` is `MEM_CAPACITY`, a positive integer at most 2^64; a write at or above it raises `CapacityExceeded` (R47). -/
structure Params where
  memCapacity : Nat
  isPositive  : 0 < memCapacity
  atMost      : memCapacity ≤ memCapacityMax
  deriving DecidableEq, Repr

/-- DESIGN CHOICE (notes/assumptions/1.md), unsafe: the capacity of `State.reset`, the largest the spec allows, which is
the one 95_test_vectors.md uses "unless stated". -/
def resetParams : Params where
  memCapacity := memCapacityMax
  isPositive  := by decide
  atMost      := by decide

end Config
end Sys2Proof
end

