-- ==== Sys2Proof/Word.lean ====
section
/-! DEFINITION. The two number types of the CORE: `Word`, a signed 64-bit integer, and `Addr`, an unsigned 64-bit
integer (00_scope.md R5, R6). Neither is a bit vector: the spec has no bit fields, and all its arithmetic is exact. -/

namespace Sys2Proof

/-- A Word: an integer in `[WORD_MIN, WORD_MAX]` (R5). A value out of range cannot be written down (R146). -/
structure Word where
  val  : Int
  isGe : Config.wordMin ≤ val
  isLe : val ≤ Config.wordMax
  deriving DecidableEq, Repr

namespace Word

@[ext] theorem ext {v w : Word} (h : v.val = w.val) : v = w := by
  cases v; cases w; cases h; rfl

/-- The range verdict of the ALU (R36): the Word with the exact value `z`, if there is one. The two halves of the range are
compared as naturals: `-(n + 1) ≥ WORD_MIN` exactly when `n ≤ WORD_MAX`. -/
def ofInt? (z : Int) : Option Word :=
  match z with
  | .ofNat n =>
    if h : n ≤ 9223372036854775807 then
      some ⟨.ofNat n, by simp only [Config.wordMin, Int.ofNat_eq_natCast]; omega,
        by simp only [Config.wordMax, Int.ofNat_eq_natCast]; omega⟩
    else none
  | .negSucc n =>
    if h : n ≤ 9223372036854775807 then
      some ⟨.negSucc n, by simp only [Config.wordMin]; omega, by simp only [Config.wordMax]; omega⟩
    else none

/-- The Word 0, which every address at or beyond `len` reads as (R46). -/
def zero : Word := ⟨0, by decide, by decide⟩

/-- The Word 1, the true result of the comparisons (R93, R94). -/
def one : Word := ⟨1, by decide, by decide⟩

@[simp] theorem zero_val : zero.val = 0 := rfl
@[simp] theorem one_val : one.val = 1 := rfl

theorem ofInt?_of_inRange {z : Int} (h₀ : Config.wordMin ≤ z) (h₁ : z ≤ Config.wordMax) : ofInt? z = some ⟨z, h₀, h₁⟩ := by
  simp only [Config.wordMin, Config.wordMax] at h₀ h₁
  cases z with
  | ofNat n => exact dif_pos (by simp only [Int.ofNat_eq_natCast] at h₁; omega)
  | negSucc n => exact dif_pos (by omega)

theorem ofInt?_eq_none {z : Int} : ofInt? z = none ↔ z < Config.wordMin ∨ Config.wordMax < z := by
  constructor
  · intro h
    by_contra hz
    rw [ofInt?_of_inRange (by omega) (by omega)] at h
    cases h
  · intro h
    simp only [Config.wordMin, Config.wordMax] at h
    cases z with
    | ofNat n => exact dif_neg (by simp only [Int.ofNat_eq_natCast] at h; omega)
    | negSucc n => exact dif_neg (by omega)

theorem ofInt?_eq_some {z : Int} {w : Word} : ofInt? z = some w ↔ w.val = z := by
  constructor
  · intro h
    by_cases hz : Config.wordMin ≤ z ∧ z ≤ Config.wordMax
    · rw [ofInt?_of_inRange hz.1 hz.2] at h
      cases h
      rfl
    · rw [ofInt?_eq_none.mpr (by omega)] at h
      cases h
  · rintro rfl
    exact ofInt?_of_inRange w.isGe w.isLe

@[simp] theorem ofInt?_val (w : Word) : ofInt? w.val = some w := ofInt?_eq_some.mpr rfl

end Word

/-- An address, and the type of `pc` and `rb`: an integer in `[0, ADDR_MAX]` (R5, R21, R22). The wrapping arithmetic of
`Fin` is never used: every sum is an exact integer that is checked against the range (R95). -/
abbrev Addr := Fin (Config.addrMax + 1)

namespace Addr

/-- The range verdict of address arithmetic (R36 `AADD`): the address with the exact value `z`, if there is one. -/
def ofInt? (z : Int) : Option Addr :=
  match z with
  | .ofNat n => if h : n ≤ Config.addrMax then some ⟨n, by omega⟩ else none
  | .negSucc _ => none

theorem ofInt?_natCast (a : Addr) : ofInt? (a.val : Int) = some a :=
  dif_pos (Nat.lt_succ_iff.mp a.isLt)

theorem ofInt?_eq_none {z : Int} : ofInt? z = none ↔ z < 0 ∨ (Config.addrMax : Int) < z := by
  cases z with
  | ofNat n =>
    unfold ofInt?
    simp only [Int.ofNat_eq_natCast]
    split
    · simp only [reduceCtorEq, false_iff]; omega
    · simp only [true_iff]; omega
  | negSucc n => simp [ofInt?]

theorem ofInt?_eq_some {z : Int} {a : Addr} : ofInt? z = some a ↔ (a.val : Int) = z := by
  constructor
  · intro h
    cases z with
    | ofNat n =>
      unfold ofInt? at h
      simp only at h
      split at h
      · cases h; rfl
      · cases h
    | negSucc n => cases h
  · rintro rfl
    exact ofInt?_natCast a

end Addr
end Sys2Proof
end

