-- ==== Sys2Proof/Machine/State.lean ====
section
/-! DEFINITION. The state of one CORE instance (10_state.md R20 to R33), the reasons a step can stop, and the state after
reset. -/

namespace Sys2Proof.Machine

/-- `MEM` with its length `len` (R23, R45), a plain array with no translation, protection or cache state (R61):
the Words that are not 0, by address, rising, and every other address reads 0. The addressable unit is one Word (R49), so a
cell is an address and a Word (notes/assumptions/3.md). -/
structure Memory where
  len   : Nat
  cells : List (Nat × Word)
  deriving DecidableEq, Repr

/-- `STATUS` (R26): the result of the last `STEP`. -/
inductive Status where
  /-- 0: no step since `INIT`, or the last step returned `Continue`. -/
  | ready
  /-- 1: the last step returned `Blocked`. -/
  | blocked
  /-- 2: the last step returned `Halted`. -/
  | halted
  /-- 3: a step returned `Fatal`; the instance refuses every command but `READ_STATUS` (R135). -/
  | faulted
  deriving DecidableEq, Repr

/-- The fatal kinds (R126). -/
inductive FatalKind where
  | invalidOpcode
  | invalidWriteTarget
  | invalidAddress
  /-- Keeps code 4 and is never raised (R132). -/
  | malformedInstructionBoundary
  | arithmeticOverflow
  | capacityExceeded
  deriving DecidableEq, Repr

/-- `FAULT` (R27): meaningful only while `STATUS = FAULTED`. -/
structure FaultRecord where
  kind   : FatalKind
  pc     : Addr
  word   : Word
  detail : Int
  deriving DecidableEq, Repr

/-- DESIGN CHOICE (notes/assumptions/2.md), unsafe: the spec leaves `FAULT` unspecified in a new instance (R27, R33, S1).
The kind is the one no rule raises, so that no fault's record equals this value. -/
def FaultRecord.initial : FaultRecord :=
  ⟨.malformedInstructionBoundary, 0, Word.zero, 0⟩

/-- The state of one instance, `S = (MEM, pc, rb, INQ, OUTQ, STATUS, FAULT)` (R20), and beside it the parameters of R5 the
spec leaves open, which nothing writes (notes/assumptions/1.md). -/
structure State where
  /-- The open parameter `MEM_CAPACITY` (R5); no command changes it. -/
  params : Config.Params
  /-- `MEM` (R23). -/
  mem    : Memory
  /-- `pc` (R21). -/
  pc     : Addr
  /-- `rb` (R22). -/
  rb     : Addr
  /-- `INQ`, head first (R24). -/
  inq    : List Word
  /-- `OUTQ`, head first (R25). -/
  outq   : List Word
  /-- `STATUS` (R26). -/
  status : Status
  /-- `FAULT` (R27). -/
  fault  : FaultRecord
  deriving DecidableEq, Repr

/-- Reasons for a step to answer `fault`. Every fatal condition of the spec is a NEXT state, since the spec describes its
entry (R134; notes/assumptions/4.md), so no definition of the model raises one of these. -/
inductive Fault where
  /-- Raised by nothing: "a model may omit it from its fault type or keep it as an unreachable constructor" (R132). Safe. -/
  | malformedInstructionBoundary
  deriving DecidableEq, Repr

/-- Reasons for a step to answer `refused`. -/
inductive Refusal where
  /-- Raised by an arm of `exec` that has no meaning yet; no arm is left without one. Safe. -/
  | notModelled (mnemonic : String)
  /-- Raised by `step` alone, on an instance whose `STATUS` is `FAULTED`: the spec's own response `Refused`, with no change
  of state (R107 step 1, R135; notes/assumptions/4.md). Safe. -/
  | instanceFaulted
  deriving DecidableEq, Repr

/-- The state after `INIT` of the empty program (R33, R143; notes/assumptions/7.md). -/
def State.reset : State where
  params := Config.resetParams
  mem    := ⟨0, []⟩
  pc     := 0
  rb     := 0
  inq    := []
  outq   := []
  status := .ready
  fault  := FaultRecord.initial

end Sys2Proof.Machine
end

