-- ==== Sys2Proof/Machine/Ops.lean ====
section
/-! DEFINITION. The named operations over memory, the queues and the registers, and the ways a step ends: the commit of an
instruction (50_host_interface.md R107 steps 8 and 9), suspension, halt, and fault entry (60_exceptions.md R134). -/

namespace Sys2Proof.Machine

/-! ## Memory -/

/-- The Word a list of cells holds at an address; an unlisted address reads as 0 (R46). -/
def Cells.get : List (Nat × Word) → Nat → Word
  | [], _ => Word.zero
  | (b, w) :: cs, a => if a = b then w else Cells.get cs a

/-- The cell list with a Word put at an address: addresses stay rising, and 0 is not listed. -/
def Cells.put : List (Nat × Word) → Nat → Word → List (Nat × Word)
  | [], a, v => if v = Word.zero then [] else [(a, v)]
  | (b, w) :: cs, a, v =>
    if a < b then (if v = Word.zero then (b, w) :: cs else (a, v) :: (b, w) :: cs)
    else if a = b then (if v = Word.zero then cs else (a, v) :: cs)
    else (b, w) :: Cells.put cs a v

/-- The canonical form of a cell list within `lo ≤ address < hi`: addresses strictly rising, no Word 0. -/
def Cells.wf (hi : Nat) : Nat → List (Nat × Word) → Bool
  | _, [] => true
  | lo, (a, w) :: cs => decide (lo ≤ a) && decide (a < hi) && decide (w ≠ Word.zero) && Cells.wf hi (a + 1) cs

/-- The canonical form of a memory: its cells are rising, below `len`, and hold no 0. -/
def Memory.wf (m : Memory) : Bool := Cells.wf m.len 0 m.cells

/-- `MemRead(a)` (R46): `MEM[a]` if `a < len`, else 0; it never raises. The address is used as it is: no translation, no
protection, no cache (R61). -/
def Memory.read (m : Memory) (a : Nat) : Word :=
  if a < m.len then Cells.get m.cells a else Word.zero

/-- The part of `MemWrite(a, v)` that changes memory (R47): grow to `a + 1` Words if `a ≥ len`, then `MEM[a] <- v`. The
capacity check stands in `complete` (R107 step 8). The address is used as it is, and the Word is in memory at once (R61). -/
def Memory.write (m : Memory) (a : Nat) (v : Word) : Memory where
  len   := max m.len (a + 1)
  cells := Cells.put m.cells a v

/-- The cells of the Words of a list placed from address `a` on. -/
def Cells.ofList : Nat → List Word → List (Nat × Word)
  | _, [] => []
  | a, w :: ws => if w = Word.zero then Cells.ofList (a + 1) ws else (a, w) :: Cells.ofList (a + 1) ws

/-- The memory `INIT` makes of a program (R33, R143): the Words at addresses `0 .. n-1`, and `len = n`. -/
def Memory.ofList (ws : List Word) : Memory where
  len   := ws.length
  cells := Cells.ofList 0 ws

/-- The sequence `MEM[0 .. len-1]` of R45 that a memory stands for. -/
def Memory.toList (m : Memory) : List Word :=
  m.cells.foldl (fun ws c => ws.set c.1 c.2) (List.replicate m.len Word.zero)

/-! ## Fatal conditions -/

/-- What `raise Fatal(kind, detail)` carries (R8, R126), one constructor for each kind that a rule raises. -/
inductive Fatal where
  /-- The instruction word that does not decode (R127). -/
  | invalidOpcode (w : Word)
  /-- The number of the write parameter whose mode is Immediate (R128). -/
  | invalidWriteTarget (i : Nat)
  /-- The integer that is no address (R129). -/
  | invalidAddress (z : Int)
  /-- The exact sum or product that is no Word (R130). -/
  | arithmeticOverflow (z : Int)
  /-- The write address at or above `MEM_CAPACITY` (R131). -/
  | capacityExceeded (a : Addr)
  deriving DecidableEq, Repr

/-- The kind of a raised condition (R126). -/
def Fatal.kind : Fatal → FatalKind
  | .invalidOpcode _ => .invalidOpcode
  | .invalidWriteTarget _ => .invalidWriteTarget
  | .invalidAddress _ => .invalidAddress
  | .arithmeticOverflow _ => .arithmeticOverflow
  | .capacityExceeded _ => .capacityExceeded

/-- The detail of a raised condition (R126). -/
def Fatal.detail : Fatal → Int
  | .invalidOpcode w => w.val
  | .invalidWriteTarget i => (i : Int)
  | .invalidAddress z => z
  | .arithmeticOverflow z => z
  | .capacityExceeded a => (a.val : Int)

/-- The code of a fatal kind (R126). -/
def FatalKind.code : FatalKind → Nat
  | .invalidOpcode => 1
  | .invalidWriteTarget => 2
  | .invalidAddress => 3
  | .malformedInstructionBoundary => 4
  | .arithmeticOverflow => 5
  | .capacityExceeded => 6

/-- The encoding of `STATUS` (R26). -/
def Status.code : Status → Nat
  | .ready => 0
  | .blocked => 1
  | .halted => 2
  | .faulted => 3

/-- Fault entry (R134): `FAULT <- (kind, pc, MemRead(pc), detail)`, `STATUS <- FAULTED`, and nothing else. There is no
return from it (R135). -/
def faultEntry (f : Fatal) (s : State) : State :=
  { s with
    status := .faulted
    fault  := ⟨f.kind, s.pc, s.mem.read s.pc.val, f.detail⟩ }

/-- The suspension of a step (R98, R107 step 7): only `STATUS` records it. -/
def suspend (s : State) : State := { s with status := .blocked }

/-- The halt of a step (R103, R107 step 7): only `STATUS` records it. -/
def halt (s : State) : State := { s with status := .halted }

/-! ## Commit -/

/-- What `Execute` hands to the commit (R107 step 8). `pcNext` is the exact integer; `rbNext` is already an address. -/
structure Effects where
  write  : Option (Addr × Word)
  pop    : Bool
  push   : Option Word
  pcNext : Nat
  rbNext : Addr
  deriving DecidableEq, Repr

/-- The effects of an instruction of `n` Words that changes nothing but `pc`: "`rb_next = rb` and `pop?`, `push?`, `write?`
absent unless the rule says otherwise" (R107). -/
def advance (n : Nat) (s : State) : Effects where
  write  := none
  pop    := false
  push   := none
  pcNext := s.pc.val + n
  rbNext := s.rb

/-- The memory after the commit's write, if it has one. -/
def writeBack (m : Memory) : Option (Addr × Word) → Memory
  | none => m
  | some (a, v) => m.write a.val v

/-- `Pop(INQ)`, if the instruction pops (R24, R97). -/
def popInput (pop : Bool) (q : List Word) : List Word :=
  match pop with
  | true => q.tail
  | false => q

/-- `Push(OUTQ, v)`, if the instruction pushes (R24, R99). -/
def pushOutput (q : List Word) : Option Word → List Word
  | none => q
  | some v => q ++ [v]

/-- The commit (R107 step 9) with the new `pc` in range. -/
def commit (e : Effects) (pc' : Addr) (s : State) : State :=
  { s with
    mem    := writeBack s.mem e.write
    inq    := popInput e.pop s.inq
    outq   := pushOutput s.outq e.push
    pc     := pc'
    rb     := e.rbNext
    status := .ready }

/-- The capacity check of the write, the last check of a step (R107 step 8, R47). -/
def checkCapacity (s : State) : Option (Addr × Word) → Except Fatal Unit
  | none => .ok ()
  | some (a, _) => if a.val < s.params.memCapacity then .ok () else .error (.capacityExceeded a)

/-- The end of an instruction that computed its effects: the two last checks of R107 step 8 in their order, the new `pc`
and then the capacity, and the commit. -/
def complete (e : Effects) (s : State) : Except Fatal State := do
  match Addr.ofInt? e.pcNext with
  | none => .error (.invalidAddress e.pcNext)
  | some pc' =>
    checkCapacity s e.write
    .ok (commit e pc' s)

/-- The outcome of an instruction: the state it reached, or fault entry from the state it started in (R107, R134). -/
def conclude (s : State) : Except Fatal State → Host.Outcome State Fault Refusal
  | .ok t => .next t
  | .error f => .next (faultEntry f s)

end Sys2Proof.Machine
end

