-- ==== Sys2Proof/Machine/Flags.lean ====
section
/-! DEFINITION. The CORE has no flags and no condition codes (10_state.md R29). What other machines compute as flags are
here the verdicts of the signed-integer ALU (R36): the range verdict of a result, the comparisons, and the zero test. -/

namespace Sys2Proof.Machine

/-- The range verdict of `ADD` and `MUL` (R36): the exact result as a Word, or `ArithmeticOverflow` with the exact result as
detail (R90, R130). -/
def toWord (z : Int) : Except Fatal Word :=
  match Word.ofInt? z with
  | some w => .ok w
  | none => .error (.arithmeticOverflow z)

/-- The ALU's `ADD`: the exact sum (R36, R91). -/
def aluAdd (a b : Word) : Int := a.val + b.val

/-- The ALU's `MUL`: the exact product (R36, R92). -/
def aluMul (a b : Word) : Int := a.val * b.val

/-- The ALU's `LT`: 1 if the first is less than the second as signed integers, else 0 (R36, R93). -/
def aluLt (a b : Word) : Word := if a.val < b.val then Word.one else Word.zero

/-- The ALU's `EQ`: 1 if the two are equal, else 0 (R36, R94). -/
def aluEq (a b : Word) : Word := if a.val = b.val then Word.one else Word.zero

/-- The ALU's `ZERO`: whether a Word is 0 (R36, R101, R102). -/
def aluZero (a : Word) : Bool := decide (a.val = 0)

/-- The ALU's `AADD` with its range verdict (R36): the exact sum of `rb` and an offset, or `InvalidAddress` (R104). -/
def aluAadd (rb : Addr) (a : Word) : Except Fatal Addr :=
  match Addr.ofInt? (rb.val + a.val) with
  | some r => .ok r
  | none => .error (.invalidAddress (rb.val + a.val))

end Sys2Proof.Machine
end

