-- ==== Sys2Proof/Syntax.lean ====
section
/-! DEFINITION. The ten instructions (30_encoding.md R74) and their parameters (R78). -/

namespace Sys2Proof

/-- The three addressing modes (R5 `NUM_MODES`, R71): mode digits 0, 1 and 2. -/
inductive Mode where
  | position
  | immediate
  | relative
  deriving DecidableEq, Repr

/-- A parameter: its mode and its parameter word (R76, R78). -/
structure Param where
  mode : Mode
  word : Word
  deriving DecidableEq, Repr

/-- One constructor per row of spec/opcode_table.json, with the parameters in the table's order. `a`, `b` and `t` are read
parameters, `d` is a write parameter (R74). A mode digit in a position the opcode does not use has no effect (R75) and is
not kept (notes/assumptions/9.md). -/
inductive Instr where
  /-- `ADD a, b, d`, opcode 1 (R91). -/
  | add (a b d : Param)
  /-- `MUL a, b, d`, opcode 2 (R92). -/
  | mul (a b d : Param)
  /-- `IN d`, opcode 3 (R97). -/
  | inp (d : Param)
  /-- `OUT a`, opcode 4 (R99). -/
  | out (a : Param)
  /-- `JNZ a, t`, opcode 5 (R101). -/
  | jnz (a t : Param)
  /-- `JZ a, t`, opcode 6 (R102). -/
  | jz (a t : Param)
  /-- `LT a, b, d`, opcode 7 (R93). -/
  | lt (a b d : Param)
  /-- `EQ a, b, d`, opcode 8 (R94). -/
  | eq (a b d : Param)
  /-- `ARB a`, opcode 9 (R104). -/
  | arb (a : Param)
  /-- `HLT`, opcode 99 (R103). -/
  | hlt
  deriving DecidableEq, Repr

/-- The number of Words an instruction occupies (R70). -/
def Instr.width : Instr → Nat
  | .add _ _ _ => 4
  | .mul _ _ _ => 4
  | .inp _ => 2
  | .out _ => 2
  | .jnz _ _ => 3
  | .jz _ _ => 3
  | .lt _ _ _ => 4
  | .eq _ _ _ => 4
  | .arb _ => 2
  | .hlt => 1

end Sys2Proof
end

