-- ==== Sys2Proof/Machine/Operands.lean ====
section
/-! DEFINITION. Operand resolution (20_memory.md R54, R55, R78) and the order in which an instruction resolves its
parameters (R56, 50_host_interface.md R107 steps 4 to 6). -/

namespace Sys2Proof.Machine

/-- A resolved address: in `[0, ADDR_MAX]`, or `InvalidAddress` with the exact integer as detail (R54, R55). -/
def toAddr (z : Int) : Except Fatal Addr :=
  match Addr.ofInt? z with
  | some a => .ok a
  | none => .error (.invalidAddress z)

/-- `ReadAddr(m, p)` (R54): Position gives the parameter word, Relative the exact sum `rb + p`, Immediate no address. -/
def readAddr (s : State) (p : Param) : Except Fatal (Option Addr) :=
  match p.mode with
  | .position => (toAddr p.word.val).map some
  | .immediate => .ok none
  | .relative => (toAddr (s.rb.val + p.word.val)).map some

/-- The value of a read parameter once its address is resolved (R107 step 6): the parameter word itself without an address,
and otherwise the Word in memory. -/
def operandValue (s : State) (p : Param) : Option Addr → Word
  | none => p.word
  | some a => s.mem.read a.val

/-- `ReadOperand(m, p)` (R54). -/
def readOperand (s : State) (p : Param) : Except Fatal Word :=
  (readAddr s p).map (operandValue s p)

/-- The write-target check of parameter `i`, made before any address is resolved (R55, R107 step 4). -/
def checkWriteTarget (i : Nat) (p : Param) : Except Fatal Unit :=
  match p.mode with
  | .position => .ok ()
  | .immediate => .error (.invalidWriteTarget i)
  | .relative => .ok ()

/-- `WriteAddr(m, p, i)` (R55). -/
def writeAddr (s : State) (i : Nat) (p : Param) : Except Fatal Addr :=
  match p.mode with
  | .position => toAddr p.word.val
  | .immediate => .error (.invalidWriteTarget i)
  | .relative => toAddr (s.rb.val + p.word.val)

/-- The operands of format F3 (R77): two values and the address of parameter 3, resolved as R107 steps 4 to 6 say: the
write-target mode, the addresses of parameters 1, 2 and 3, then the values. -/
def operandsF3 (s : State) (a b d : Param) : Except Fatal (Word × Word × Addr) := do
  checkWriteTarget 3 d
  let a₁ ← readAddr s a
  let a₂ ← readAddr s b
  let dst ← writeAddr s 3 d
  .ok (operandValue s a a₁, operandValue s b a₂, dst)

/-- The operands of format F2 (R77): two values, their addresses resolved in order before any value is read. -/
def operandsF2 (s : State) (a b : Param) : Except Fatal (Word × Word) := do
  let a₁ ← readAddr s a
  let a₂ ← readAddr s b
  .ok (operandValue s a a₁, operandValue s b a₂)

/-- The operand of format F1R (R77). -/
def operandF1R (s : State) (a : Param) : Except Fatal Word := readOperand s a

/-- The write address of format F1W (R77): the mode check and then the address (R107 steps 4 and 5). -/
def operandF1W (s : State) (d : Param) : Except Fatal Addr := do
  checkWriteTarget 1 d
  writeAddr s 1 d

end Sys2Proof.Machine
end

