-- ==== Sys2Proof/Machine/Arith.lean ====
section
/-! DEFINITION. The ALU instructions ADD, MUL, LT and EQ (40_alu.md R90 to R95). -/

namespace Sys2Proof.Machine

/-- The family rule (R90): resolve the operands of format F3, compute one Word, write it to the address of parameter 3 and
advance `pc` by 4. -/
def execF3 (f : Word → Word → Except Fatal Word) (a b d : Param) (s : State) : Host.Outcome State Fault Refusal :=
  conclude s do
    let (x, y, dst) ← operandsF3 s a b d
    let r ← f x y
    complete { advance 4 s with write := some (dst, r) } s

/-- `ADD a, b, d` (R91). -/
def execAdd (a b d : Param) (s : State) : Host.Outcome State Fault Refusal :=
  execF3 (fun x y => toWord (aluAdd x y)) a b d s

/-- `MUL a, b, d` (R92). -/
def execMul (a b d : Param) (s : State) : Host.Outcome State Fault Refusal :=
  execF3 (fun x y => toWord (aluMul x y)) a b d s

/-- `LT a, b, d` (R93). -/
def execLt (a b d : Param) (s : State) : Host.Outcome State Fault Refusal :=
  execF3 (fun x y => .ok (aluLt x y)) a b d s

/-- `EQ a, b, d` (R94). -/
def execEq (a b d : Param) (s : State) : Host.Outcome State Fault Refusal :=
  execF3 (fun x y => .ok (aluEq x y)) a b d s

end Sys2Proof.Machine
end

