-- ==== Sys2Proof/Machine/Control.lean ====
section
/-! DEFINITION. The control-transfer instructions JNZ, JZ and HLT (42_control.md R100 to R103). -/

namespace Sys2Proof.Machine

/-- The check of a jump target, made whether or not the jump is taken (R100, D8). -/
def jumpTarget (t : Word) : Except Fatal Nat :=
  match t.val with
  | .ofNat n => .ok n
  | .negSucc n => .error (.invalidAddress (.negSucc n))

/-- The family rule of the conditional jumps (R100): the target is a read parameter in any mode (C1); a taken jump sets `pc`
to it, and a jump not taken advances `pc` by 3. -/
def execJump (taken : Word → Bool) (a t : Param) (s : State) : Host.Outcome State Fault Refusal :=
  conclude s do
    let (x, y) ← operandsF2 s a t
    let target ← jumpTarget y
    complete (if taken x then { advance 3 s with pcNext := target } else advance 3 s) s

/-- `JNZ a, t` (R101). -/
def execJnz (a t : Param) (s : State) : Host.Outcome State Fault Refusal :=
  execJump (fun x => !aluZero x) a t s

/-- `JZ a, t` (R102). -/
def execJz (a t : Param) (s : State) : Host.Outcome State Fault Refusal :=
  execJump (fun x => aluZero x) a t s

/-- `HLT` (R103): `pc` is not advanced. -/
def execHlt (s : State) : Host.Outcome State Fault Refusal :=
  conclude s (.ok (halt s))

end Sys2Proof.Machine
end

