-- ==== Sys2Proof/Machine/Io.lean ====
section
/-! DEFINITION. The I/O instructions IN and OUT (41_io.md R96 to R99). -/

namespace Sys2Proof.Machine

/-- `IN d` (R97): the target is checked and resolved first (R107 steps 4 and 5); an empty `INQ` suspends the step (R98);
otherwise the head of `INQ` is written and popped, and `pc` advances by 2. -/
def execIn (d : Param) (s : State) : Host.Outcome State Fault Refusal :=
  conclude s do
    let dst ← operandF1W s d
    match s.inq with
    | [] => .ok (suspend s)
    | v :: _ => complete { advance 2 s with write := some (dst, v), pop := true } s

/-- `OUT a` (R99): the value is appended to `OUTQ`, and `pc` advances by 2. -/
def execOut (a : Param) (s : State) : Host.Outcome State Fault Refusal :=
  conclude s do
    let x ← operandF1R s a
    complete { advance 2 s with push := some x } s

end Sys2Proof.Machine
end

