-- ==== Sys2Proof/Machine/RelativeBase.lean ====
section
/-! DEFINITION. The relative-base instruction ARB (43_relative_base.md R104, R105). -/

namespace Sys2Proof.Machine

/-- `ARB a` (R104): `rb` becomes the exact sum `rb + a`, and `pc` advances by 2. -/
def execArb (a : Param) (s : State) : Host.Outcome State Fault Refusal :=
  conclude s do
    let x ← operandF1R s a
    let r ← aluAadd s.rb x
    complete { advance 2 s with rbNext := r } s

end Sys2Proof.Machine
end

