-- ==== Sys2Proof/Decode.lean ====
section
/-! DEFINITION. The decoder (30_encoding.md R70 to R80), the encoder (R81), and the reading of the opcode table's bit
numbers that the host's own questions use. The encoding is decimal: fields are digits of a Word. -/

namespace Sys2Proof

/-- `digit(w, k)`: the decimal digit of `w` in place `k`, the ones place being 0 (R7). -/
def digit (w k : Nat) : Nat := w / 10 ^ k % 10

/-- The mode a mode digit stands for; 3 to 9 stand for none (R71, R73). -/
def Mode.ofDigit? : Nat → Option Mode
  | 0 => some .position
  | 1 => some .immediate
  | 2 => some .relative
  | _ => none

/-- The digit of a mode (R71). -/
def Mode.digit : Mode → Nat
  | .position => 0
  | .immediate => 1
  | .relative => 2

/-- The ten operations of the opcode map (R74). -/
inductive Opcode where
  | add | mul | inp | out | jnz | jz | lt | eq | arb | hlt
  deriving DecidableEq, Repr

/-- The opcode field's value (R74). -/
def Opcode.code : Opcode → Nat
  | .add => 1
  | .mul => 2
  | .inp => 3
  | .out => 4
  | .jnz => 5
  | .jz => 6
  | .lt => 7
  | .eq => 8
  | .arb => 9
  | .hlt => 99

/-- The operation an opcode field stands for; 0 and 10 to 98 stand for none (R73, R80). -/
def Opcode.ofCode? : Nat → Option Opcode
  | 1 => some .add
  | 2 => some .mul
  | 3 => some .inp
  | 4 => some .out
  | 5 => some .jnz
  | 6 => some .jz
  | 7 => some .lt
  | 8 => some .eq
  | 9 => some .arb
  | 99 => some .hlt
  | _ => none

/-- `Params(op)`, the number of parameter words (R74). -/
def Opcode.params : Opcode → Nat
  | .add => 3
  | .mul => 3
  | .inp => 1
  | .out => 1
  | .jnz => 2
  | .jz => 2
  | .lt => 3
  | .eq => 3
  | .arb => 1
  | .hlt => 0

/-- Why a Word is no instruction word. Every one of them is reported as `InvalidOpcode` with the Word as detail (R73, R80). -/
inductive DecodeError where
  /-- The Word is negative (R72, R80 c). -/
  | negativeWord
  /-- The Word is above 99999 (R72, R80 d). -/
  | tooManyDigits
  /-- The opcode field is 0 or 10 to 98 (R80 a). -/
  | unknownOpcode (field : Nat)
  /-- A mode digit of a parameter position is 3 to 9 (R75, R80 b). -/
  | badModeDigit (position : Nat)
  deriving DecidableEq, Repr

/-- The decoder's outputs for a valid instruction word (R34): the operation and the three mode digits. -/
structure Head where
  op : Opcode
  m1 : Mode
  m2 : Mode
  m3 : Mode
  deriving DecidableEq, Repr

/-- The opcode and mode fields of the number an instruction word is (R71, R73, R75). All three mode digits are checked,
whatever the opcode's parameter count. -/
def decodeFields (n : Nat) : Except DecodeError Head :=
  match Opcode.ofCode? (n % 100), Mode.ofDigit? (digit n 2), Mode.ofDigit? (digit n 3), Mode.ofDigit? (digit n 4) with
  | some op, some m1, some m2, some m3 => .ok ⟨op, m1, m2, m3⟩
  | none, _, _, _ => .error (.unknownOpcode (n % 100))
  | _, none, _, _ => .error (.badModeDigit 1)
  | _, _, none, _ => .error (.badModeDigit 2)
  | _, _, _, none => .error (.badModeDigit 3)

/-- `Decode(w)` (R72, R73). -/
def decodeHead (w : Word) : Except DecodeError Head :=
  match w.val with
  | .negSucc _ => .error .negativeWord
  | .ofNat n => if n ≤ Config.instrWordMax then decodeFields n else .error .tooManyDigits

/-- The instruction of a head whose parameter word `i` (1 to 3) is `P i` (R76); only the first `op.params` are used. -/
def Head.toInstr (h : Head) (P : Nat → Word) : Instr :=
  match h.op with
  | .add => .add ⟨h.m1, P 1⟩ ⟨h.m2, P 2⟩ ⟨h.m3, P 3⟩
  | .mul => .mul ⟨h.m1, P 1⟩ ⟨h.m2, P 2⟩ ⟨h.m3, P 3⟩
  | .inp => .inp ⟨h.m1, P 1⟩
  | .out => .out ⟨h.m1, P 1⟩
  | .jnz => .jnz ⟨h.m1, P 1⟩ ⟨h.m2, P 2⟩
  | .jz => .jz ⟨h.m1, P 1⟩ ⟨h.m2, P 2⟩
  | .lt => .lt ⟨h.m1, P 1⟩ ⟨h.m2, P 2⟩ ⟨h.m3, P 3⟩
  | .eq => .eq ⟨h.m1, P 1⟩ ⟨h.m2, P 2⟩ ⟨h.m3, P 3⟩
  | .arb => .arb ⟨h.m1, P 1⟩
  | .hlt => .hlt

/-- The instruction whose instruction word is `P 0` and whose parameter words follow it (R70, R76). -/
def decodeFrom (P : Nat → Word) : Except DecodeError Instr :=
  match decodeHead (P 0) with
  | .ok h => .ok (h.toInstr P)
  | .error e => .error e

/-- The decoder on a list of Words: the instruction at its front. Total on any Words, rejecting by name; beyond the list's
end a parameter word reads as 0, as memory does beyond `len` (R46, R76). -/
def decode (ws : List Word) : Except DecodeError Instr :=
  decodeFrom fun i => ws.getD i Word.zero

/-! ## The encoder -/

theorem Mode.digit_le (m : Mode) : m.digit ≤ 2 := by cases m <;> decide

theorem Opcode.code_le (op : Opcode) : op.code ≤ 99 := by cases op <;> decide

/-- `op + 100*m1 + 1000*m2 + 10000*m3` (R81). -/
def Head.number (h : Head) : Nat :=
  h.op.code + 100 * h.m1.digit + 1000 * h.m2.digit + 10000 * h.m3.digit

theorem Head.number_le (h : Head) : h.number ≤ 22299 := by
  have := h.op.code_le
  have := h.m1.digit_le
  have := h.m2.digit_le
  have := h.m3.digit_le
  unfold Head.number
  omega

/-- The instruction word of a head (R81). -/
def encodeHead (h : Head) : Word where
  val := (h.number : Int)
  isGe := by have := h.number_le; simp only [Config.wordMin]; omega
  isLe := by have := h.number_le; simp only [Config.wordMax]; omega

/-- The canonical head of an instruction: digit 0, Position, in every position its opcode does not use (R81). -/
def Instr.head : Instr → Head
  | .add a b d => ⟨.add, a.mode, b.mode, d.mode⟩
  | .mul a b d => ⟨.mul, a.mode, b.mode, d.mode⟩
  | .inp d => ⟨.inp, d.mode, .position, .position⟩
  | .out a => ⟨.out, a.mode, .position, .position⟩
  | .jnz a t => ⟨.jnz, a.mode, t.mode, .position⟩
  | .jz a t => ⟨.jz, a.mode, t.mode, .position⟩
  | .lt a b d => ⟨.lt, a.mode, b.mode, d.mode⟩
  | .eq a b d => ⟨.eq, a.mode, b.mode, d.mode⟩
  | .arb a => ⟨.arb, a.mode, .position, .position⟩
  | .hlt => ⟨.hlt, .position, .position, .position⟩

/-- The parameter words of an instruction, in order (R70). -/
def Instr.paramWords : Instr → List Word
  | .add a b d => [a.word, b.word, d.word]
  | .mul a b d => [a.word, b.word, d.word]
  | .inp d => [d.word]
  | .out a => [a.word]
  | .jnz a t => [a.word, t.word]
  | .jz a t => [a.word, t.word]
  | .lt a b d => [a.word, b.word, d.word]
  | .eq a b d => [a.word, b.word, d.word]
  | .arb a => [a.word]
  | .hlt => []

/-- The Words of an instruction: the canonical encoding (R81). -/
def encode (i : Instr) : List Word :=
  encodeHead i.head :: i.paramWords

/-! ## The opcode table's bits

DESIGN CHOICE (notes/assumptions/6.md), safe: the spec's encoding has no bits. Where a question numbers an instruction's
bits, Word `k` of the instruction is bits `64*k + 63` down to `64*k`, read as a two's-complement number. -/

/-- The Word whose 64 two's-complement bits are the low 64 bits of `n`. -/
def wordOfBits (n : Nat) : Word :=
  let r := n % 18446744073709551616
  if h : r < 9223372036854775808 then
    ⟨(r : Int), by simp only [Config.wordMin]; omega, by simp only [Config.wordMax]; omega⟩
  else
    ⟨(r : Int) - 18446744073709551616, by simp only [Config.wordMin]; omega, by
      have : r < 18446744073709551616 := Nat.mod_lt _ (by decide)
      simp only [Config.wordMax]; omega⟩

/-- The four Words (the longest instruction) whose bits are `w`, every bit from `nbits` on being 0. -/
def tableWords (nbits w : Nat) : List Word :=
  (List.range 4).map fun k => wordOfBits (w % 2 ^ nbits / 2 ^ (64 * k))

/-- The instruction the decoder reads from an instruction whose bits are `w`. -/
def decodeTableWord (nbits w : Nat) : Option Instr :=
  match decode (tableWords nbits w) with
  | .ok i => some i
  | .error _ => none

end Sys2Proof
end

