-- ==== Sys2Proof/Machine/Fetch.lean ====
section
/-! DEFINITION. Fetching and decoding the instruction at `pc` (50_host_interface.md R107 steps 2 and 3), and placing one
there. -/

namespace Sys2Proof.Machine

/-- The instruction at `pc`: the instruction word `MemRead(pc)` is decoded, and its parameter words are `MemRead(pc + i)`,
with the exact integer `pc + i` (R46, R73, R76). -/
def fetch (s : State) : Except DecodeError Instr :=
  decodeFrom fun i => s.mem.read (s.pc.val + i)

/-- The memory with the Words of a list written from address `a` on. -/
def placeWords (m : Memory) : Nat → List Word → Memory
  | _, [] => m
  | a, w :: ws => placeWords (m.write a w) (a + 1) ws

/-- The status in which an instance runs: a faulted one refuses every step (R135), and a program is only ever loaded into a
new instance, whose status is `READY` (R143). -/
def runnableStatus : Status → Status
  | .ready => .ready
  | .blocked => .blocked
  | .halted => .halted
  | .faulted => .ready

end Sys2Proof.Machine
end

