-- ==== Sys2Proof/Machine/Step.lean ====
section
/-! DEFINITION. The transaction `STEP` (50_host_interface.md R107), and the instruction the host places for its own
questions. -/

namespace Sys2Proof.Machine

/-- `STEP` (R107): a faulted instance refuses (step 1, R135); a word that does not decode raises `InvalidOpcode` with the
word as detail (step 2, R127); otherwise the decoded instruction runs (steps 3 to 9). -/
def step (s : State) : Host.Outcome State Fault Refusal :=
  match s.status with
  | .faulted => .refused .instanceFaulted
  | .ready | .blocked | .halted =>
    match fetch s with
    | .ok i => exec i s
    | .error _ => conclude s (.error (.invalidOpcode (s.mem.read s.pc.val)))

/-- The state with the instruction whose bits are `w` at `pc`, in an instance that can run (notes/assumptions/6.md and
notes/assumptions/7.md). -/
def State.withFetchWord (s : State) (nbits w : Nat) : State :=
  { s with
    mem    := placeWords s.mem s.pc.val (tableWords nbits w)
    status := runnableStatus s.status }

end Sys2Proof.Machine
end

