-- ==== Sys2Proof/Machine/HostPort.lean ====
section
/-! DEFINITION. The command port of one instance (50_host_interface.md R106 to R117): every command but `INIT`, its
response, and the state it leaves. Commands never overlap (R106, R121), so a command is a function of the state and its
arguments (R122); `STEP` is `Sys2Proof.Machine.step` (notes/assumptions/14.md). -/

namespace Sys2Proof.Machine

/-- The results of `STEP` (R108). -/
inductive StepResult where
  /-- `Continue`: an instruction other than 99 executed and committed. -/
  | continued
  /-- `Blocked` (R98). -/
  | blocked
  /-- `Halted` (R103). -/
  | halted
  /-- `Fatal(record)` (R134). -/
  | fatal (record : FaultRecord)
  /-- `Refused`: the instance had already faulted (R135). -/
  | refused
  deriving DecidableEq, Repr

/-- The result a step recorded in `STATUS` and `FAULT` (R26, R108). -/
def recordedResult (t : State) : StepResult :=
  match t.status with
  | .ready => .continued
  | .blocked => .blocked
  | .halted => .halted
  | .faulted => .fatal t.fault

/-- The command `STEP`: its result and the state after it (R107, R108). A refused step changes nothing (R135); `step`
answers no `fault`. -/
def stepCommand (s : State) : StepResult × State :=
  match step s with
  | .next t => (recordedResult t, t)
  | .fault _ => (.refused, s)
  | .refused _ => (.refused, s)

/-- The command `RUN` (R110) on at most `fuel` steps: it steps until a result other than `Continue`. Running out of fuel
(`none`) is the model's own outcome and no response of the CORE (R111; notes/assumptions/10.md). -/
def runCommand : Nat → State → Option (StepResult × State)
  | 0, _ => none
  | fuel + 1, s =>
    match stepCommand s with
    | (.continued, t) => runCommand fuel t
    | (.blocked, t) => some (.blocked, t)
    | (.halted, t) => some (.halted, t)
    | (.fatal f, t) => some (.fatal f, t)
    | (.refused, t) => some (.refused, t)

/-- `WRITE_PORT(values)` (R112). -/
def writePort (vs : List Word) (s : State) : State := { s with inq := s.inq ++ vs }

/-- `READ_PORT` (R113). -/
def readPort (s : State) : Option Word × State :=
  match s.outq with
  | [] => (none, s)
  | v :: vs => (some v, { s with outq := vs })

/-- `READ_EXACT(n)` (R114). -/
def readExact (n : Nat) (s : State) : Option (List Word) × State :=
  if n ≤ s.outq.length then (some (s.outq.take n), { s with outq := s.outq.drop n }) else (none, s)

/-- `READ_ALL` (R115). -/
def readAll (s : State) : List Word × State := (s.outq, { s with outq := [] })

/-- The state of the instance `CLONE` makes (R116): every element the rule names is copied; `FAULT`, which it does not name
and no command reads there (S1), is as in every new instance (notes/assumptions/8.md). -/
def cloneState (s : State) : State := { s with fault := FaultRecord.initial }

/-- `READ_STATUS`'s answer (R117): the `FAULT` record only when `STATUS = FAULTED`. -/
def readableFault (s : State) : Option FaultRecord :=
  match s.status with
  | .ready => none
  | .blocked => none
  | .halted => none
  | .faulted => some s.fault

/-- The state `INIT(program)` makes (R33, R143; notes/assumptions/12.md for a program longer than the capacity). -/
def initState (params : Config.Params) (program : List Word) : State where
  params := params
  mem    := Memory.ofList program
  pc     := 0
  rb     := 0
  inq    := []
  outq   := []
  status := .ready
  fault  := FaultRecord.initial

/-- The commands that name an existing instance (R106). -/
inductive Command where
  | writePort (values : List Word)
  | readPort
  | readExact (n : Nat)
  | readAll
  | step
  | run
  | clone
  | readStatus
  | peek (a : Nat)
  | peekLen
  | peekRegs
  deriving DecidableEq, Repr

/-- The responses (R106, R117, R135). -/
inductive Response where
  | acknowledged
  /-- `READ_PORT`: `Some(v)` or `None`. -/
  | port (v : Option Word)
  /-- `READ_EXACT`: `Some([v1..vn])` or `None`. -/
  | exact (vs : Option (List Word))
  /-- `READ_ALL`. -/
  | all (vs : List Word)
  /-- `STEP` and `RUN`. -/
  | result (r : StepResult)
  /-- `CLONE`: the new instance. -/
  | created (t : State)
  /-- `READ_STATUS`: `STATUS`, and `FAULT` when it is `FAULTED`. -/
  | status (st : Status) (record : Option FaultRecord)
  /-- `PEEK(a)`. -/
  | word (w : Word)
  /-- `PEEK_LEN`. -/
  | length (n : Nat)
  /-- `PEEK_REGS`. -/
  | regs (pc rb : Addr)
  /-- `Refused` (R135). -/
  | refused
  deriving DecidableEq, Repr

/-- The response to `STEP` or `RUN` (R108, R110): a refused step is the response `Refused`. -/
def resultResponse : StepResult → Response
  | .continued => .result .continued
  | .blocked => .result .blocked
  | .halted => .result .halted
  | .fatal f => .result (.fatal f)
  | .refused => .refused

/-- A command on an instance that has not faulted (R107 to R117). Only `RUN` uses fuel. -/
def perform (fuel : Nat) (c : Command) (s : State) : Option (Response × State) :=
  match c with
  | .writePort vs => some (.acknowledged, writePort vs s)
  | .readPort => some (.port (readPort s).1, (readPort s).2)
  | .readExact n => some (.exact (readExact n s).1, (readExact n s).2)
  | .readAll => some (.all (readAll s).1, (readAll s).2)
  | .step => some (resultResponse (stepCommand s).1, (stepCommand s).2)
  | .run => (runCommand fuel s).map fun r => (resultResponse r.1, r.2)
  | .clone => some (.created (cloneState s), s)
  | .readStatus => some (.status s.status (readableFault s), s)
  | .peek a => some (.word (s.mem.read a), s)
  | .peekLen => some (.length s.mem.len, s)
  | .peekRegs => some (.regs s.pc s.rb, s)

/-- A command on a faulted instance (R135): `READ_STATUS` is answered, every other command is refused, nothing changes. -/
def performFaulted (c : Command) (s : State) : Response × State :=
  match c with
  | .readStatus => (.status s.status (readableFault s), s)
  | .writePort _ | .readPort | .readExact _ | .readAll | .step | .run | .clone | .peek _ | .peekLen | .peekRegs =>
    (.refused, s)

/-- One transaction (R106): the response to a command and the state it leaves, or `none` for a `RUN` that has not ended
within the fuel (R111). -/
def transact (fuel : Nat) (c : Command) (s : State) : Option (Response × State) :=
  match s.status with
  | .faulted => some (performFaulted c s)
  | .ready | .blocked | .halted => perform fuel c s

/-- The transaction as a relation over finite sequences of steps (R111): the instance in state `s` answers `c` with `r` and
is then in state `t`. -/
def Responds (c : Command) (s : State) (r : Response) (t : State) : Prop :=
  ∃ fuel, transact fuel c s = some (r, t)

/-- The Words a response hands to the host from `OUTQ`, oldest first (R113, R114, R115). -/
def Response.outputRead : Response → List Word
  | .port (some v) => [v]
  | .exact (some vs) => vs
  | .all vs => vs
  | .port none | .exact none => []
  | .acknowledged | .result _ | .created _ | .status _ _ | .word _ | .length _ | .regs _ _ | .refused => []

/-- The Words that enter `OUTQ` while a command leads from `s` to `t`, oldest first: only the steps of `STEP` and `RUN` push
(R96), and they take nothing out, so that these are the Words behind those that were there. -/
def enteredOutput (c : Command) (s t : State) : List Word :=
  match c with
  | .step => t.outq.drop s.outq.length
  | .run => t.outq.drop s.outq.length
  | .writePort _ | .readPort | .readExact _ | .readAll | .clone | .readStatus | .peek _ | .peekLen | .peekRegs => []

/-- A sequence of transactions on one instance, with their responses in order (R106). -/
inductive Conversation : State → List (Command × Response) → State → Prop where
  | nil (s : State) : Conversation s [] s
  | cons {s t u : State} {c : Command} {r : Response} {rest : List (Command × Response)} :
      Responds c s r t → Conversation t rest u → Conversation s ((c, r) :: rest) u

end Sys2Proof.Machine
end

