-- ==== Sys2Proof/Machine/System.lean ====
section
/-! DEFINITION. Several instances under one host (20_memory.md R62, 60_exceptions.md R140): each has its own state, `INIT`
and `CLONE` make new ones, the host may drop one (50_host_interface.md R123). Instances have no hardware identifier; the
host's name for one is its place in the order of creation (notes/assumptions/11.md). -/

namespace Sys2Proof.Machine

/-- The instances in the order of their creation; a dropped one leaves an empty slot. `params` are the implementation's
parameters, the same for every instance it makes (R5). -/
structure System where
  params    : Config.Params
  slots     : List (Option State)
  deriving DecidableEq, Repr

/-- What the host may do (R106, R123). -/
inductive HostAction where
  | init (program : List Word)
  | command (k : Nat) (c : Command)
  | drop (k : Nat)
  deriving DecidableEq, Repr

/-- The instance `k`, if it exists (R106: a command "names one existing instance"). -/
def System.slot? (sys : System) (k : Nat) : Option State := (sys.slots[k]?).join

/-- The system with a new instance (R116, R143). -/
def System.addInstance (sys : System) (t : State) : System :=
  { sys with slots := sys.slots ++ [some t] }

/-- The system with the state of instance `k` replaced. -/
def System.setInstance (sys : System) (k : Nat) (t : Option State) : System :=
  { sys with slots := sys.slots.set k t }

/-- The new instance a response carries (R116). -/
def System.withCreated (sys : System) : Response → System
  | .created t => sys.addInstance t
  | .acknowledged | .port _ | .exact _ | .all _ | .result _ | .status _ _ | .word _ | .length _ | .regs _ _ | .refused => sys

/-- One host action: the response, if the action has one, and the system after it. `none`: the action names no existing
instance, or a `RUN` has not ended within the fuel (R111). -/
def System.act (fuel : Nat) (sys : System) : HostAction → Option (Option Response × System)
  | .init program =>
    let t := initState sys.params program
    some (some (.created t), sys.addInstance t)
  | .command k c =>
    match sys.slot? k with
    | none => none
    | some s =>
      match transact fuel c s with
      | none => none
      | some (r, t) => some (some r, (sys.setInstance k (some t)).withCreated r)
  | .drop k =>
    match sys.slot? k with
    | none => none
    | some _ => some (none, sys.setInstance k none)

/-- Finitely many host actions, one after another (R106, R140). -/
inductive System.Runs : System → List HostAction → System → Prop where
  | nil (sys : System) : System.Runs sys [] sys
  | cons {sys sys' sys'' : System} {fuel : Nat} {x : HostAction} {rest : List HostAction} {r : Option Response} :
      sys.act fuel x = some (r, sys') → System.Runs sys' rest sys'' → System.Runs sys (x :: rest) sys''

end Sys2Proof.Machine
end

