-- ==== Sys2Proof/Safety.lean ====
section
/-! DEFINITION. What counts as a good state and a good run, in the terms the statements use (50_host_interface.md R124). -/

namespace Sys2Proof.Machine

/-- The `FAULT` record describes the instruction at `pc` (R27, R134), with a kind some rule raises (R132), and with the
instruction word as the detail of `InvalidOpcode` (R126). -/
def State.recordMatches (s : State) : Prop :=
  s.fault.pc = s.pc ∧ s.fault.word = s.mem.read s.pc.val ∧ s.fault.kind ≠ .malformedInstructionBoundary ∧
    (s.fault.kind = .invalidOpcode → s.fault.detail = s.fault.word.val)

/-- What `STATUS` says of the instruction at `pc`: a blocked instance stands at an `IN` (R98), a halted one at a `HLT`
(R103), and a faulted one holds the record of the instruction that faulted (R134). -/
def State.statusAgrees (s : State) : Prop :=
  match s.status with
  | .ready => True
  | .blocked => ∃ d, fetch s = .ok (.inp d)
  | .halted => fetch s = .ok .hlt
  | .faulted => s.recordMatches

/-- The invariant: memory is in canonical form, and `STATUS` agrees with the instruction at `pc`. -/
def State.Inv (s : State) : Prop := s.mem.wf = true ∧ s.statusAgrees

/-- A `STEP` whose result is `Continue` (R108). -/
def Continues (s t : State) : Prop := step s = .next t ∧ t.status = .ready

/-- Finitely many `STEP`s, each with the result `Continue` (R110). -/
inductive Reaches : State → State → Prop where
  | refl (s : State) : Reaches s s
  | step {s t u : State} : Continues s t → Reaches t u → Reaches s u

/-- Finitely many `STEP`s, all with the result `Continue` but the last, which leaves the status `st` (R110). -/
def StepsTo (st : Status) (s t : State) : Prop := ∃ u, Reaches s u ∧ step u = .next t ∧ t.status = st

/-- The life of an instance since its `INIT` (R143): the transactions so far with their responses, in order, the state, and
the program's output so far, "every Word that has entered `OUTQ` since `INIT`, in order, whether or not the host has already
read it" (R124). Every command of the host may occur, so that a program may block, be fed and go on, and its output may be
read at any time. An instance that `CLONE` made was not started by `INIT` and has no session of its own. -/
inductive Session (params : Config.Params) (program : List Word) :
    List (Command × Response) → State → List Word → Prop where
  | init : Session params program [] (initState params program) []
  | command {talk : List (Command × Response)} {s t : State} {output : List Word} {c : Command} {r : Response} :
      Session params program talk s output → Responds c s r t →
      Session params program (talk ++ [(c, r)]) t (output ++ enteredOutput c s t)

/-- In the life of a program started by `INIT`, a `STEP`, its own or the last of a `RUN`, returned `r`, in the state `t` and
with the output `output` (R124). -/
def ProgramReturns (r : StepResult) (params : Config.Params) (program : List Word) (t : State) (output : List Word) : Prop :=
  ∃ talk c, Session params program (talk ++ [(c, .result r)]) t output

/-- "A program started by `INIT` ends well when a `STEP` returns `Halted`: the final state is the state at that step" (R124);
`output` is the program's output. -/
def EndsWell (params : Config.Params) (program : List Word) (t : State) (output : List Word) : Prop :=
  ProgramReturns .halted params program t output

/-- "It is suspended, not ended, when a step returns `Blocked`" (R124). -/
def IsSuspended (params : Config.Params) (program : List Word) (t : State) (output : List Word) : Prop :=
  ProgramReturns .blocked params program t output

/-- "It ends badly when a step returns `Fatal`" (R124), with the record in `FAULT`. -/
def EndsBadly (params : Config.Params) (program : List Word) (t : State) (output : List Word) : Prop :=
  ProgramReturns (.fatal t.fault) params program t output

/-- The host gives the input in chunks, each by one `WRITE_PORT` followed by one `RUN` that responds (R122). -/
inductive Feeds : State → List (List Word) → State → Prop where
  | last {s t : State} {vs : List Word} {r : StepResult} {fuel : Nat} :
      runCommand fuel (writePort vs s) = some (r, t) → Feeds s [vs] t
  | more {s t u : State} {vs : List Word} {r : StepResult} {fuel : Nat} {rest : List (List Word)} :
      runCommand fuel (writePort vs s) = some (r, t) → t.status ≠ .faulted → Feeds t rest u → Feeds s (vs :: rest) u

end Sys2Proof.Machine
end

