-- ==== Sys2Proof/WellFormed.lean ====
section
/-! DEFINITION. The legal forms of an instruction: the formats of 30_encoding.md R77. Every parameter may have every mode
but the write parameter, which may not be Immediate. An ill-formed instruction still decodes; executing it raises
`InvalidWriteTarget` (R80, R128). -/

namespace Sys2Proof

/-- "Only `Position` and `Relative` are valid as *write* targets" (R55). -/
def Param.isWriteTarget (p : Param) : Bool :=
  match p.mode with
  | .position => true
  | .immediate => false
  | .relative => true

/-- The formats of R77: the only illegal form is an Immediate write parameter. -/
def Instr.wellFormed : Instr → Bool
  | .add _ _ d => d.isWriteTarget
  | .mul _ _ d => d.isWriteTarget
  | .inp d => d.isWriteTarget
  | .out _ => true
  | .jnz _ _ => true
  | .jz _ _ => true
  | .lt _ _ d => d.isWriteTarget
  | .eq _ _ d => d.isWriteTarget
  | .arb _ => true
  | .hlt => true

end Sys2Proof
end

