-- ==== Sys2Proof/Certificates/Slice0/Obligations.lean ====
section
/-! DEFINITION. The statements for the provers. Each docstring names the rule of spec/ it formalises, and the decision (D<n>
of 92_eei_decisions.md) or log entry it rests on where the spec marks the point as its own choice or the model chose. -/

namespace Sys2Proof.Statements
open Sys2Proof.Machine

/-- The Word of an integer literal in range. -/
def lit (z : Int) : Word := (Word.ofInt? z).getD Word.zero

/-- The state fault entry leaves (R134): the record, `STATUS = FAULTED`, and everything else as it was. -/
def faultedWith (s : State) (kind : FatalKind) (detail : Int) : State :=
  { s with status := .faulted, fault := ⟨kind, s.pc, s.mem.read s.pc.val, detail⟩ }

/-- The exact integer a parameter names as an address; an Immediate parameter names none (R54, R55). -/
def exactAddress (s : State) (p : Param) : Option Int :=
  match p.mode with
  | .position => some p.word.val
  | .immediate => none
  | .relative => some ((s.rb.val : Int) + p.word.val)

/-- The parameter's exact address is outside `[0, ADDR_MAX]` (R129 a, b). -/
def BadAddress (s : State) (p : Param) (z : Int) : Prop :=
  exactAddress s p = some z ∧ (z < 0 ∨ (Config.addrMax : Int) < z)

/-- The parameter names no address, or one in `[0, ADDR_MAX]`. -/
def GoodAddress (s : State) (p : Param) : Prop :=
  ∀ z, exactAddress s p = some z → 0 ≤ z ∧ z ≤ (Config.addrMax : Int)

/-- The four Words from `pc` on, from which an instruction is decoded (R70, R76). -/
def wordsAtPc (s : State) : List Word :=
  [s.mem.read s.pc.val, s.mem.read (s.pc.val + 1), s.mem.read (s.pc.val + 2), s.mem.read (s.pc.val + 3)]

/-- The write parameter of an instruction, with its number (R74): parameter 3 of ADD, MUL, LT and EQ, parameter 1 of IN. -/
def writeParam? : Instr → Option (Nat × Param)
  | .add _ _ d => some (3, d)
  | .mul _ _ d => some (3, d)
  | .inp d => some (1, d)
  | .out _ => none
  | .jnz _ _ => none
  | .jz _ _ => none
  | .lt _ _ d => some (3, d)
  | .eq _ _ d => some (3, d)
  | .arb _ => none
  | .hlt => none

/-- The parameters of an instruction, in order (R74). -/
def paramsOf : Instr → List Param
  | .add a b d => [a, b, d]
  | .mul a b d => [a, b, d]
  | .inp d => [d]
  | .out a => [a]
  | .jnz a p => [a, p]
  | .jz a p => [a, p]
  | .lt a b d => [a, b, d]
  | .eq a b d => [a, b, d]
  | .arb a => [a]
  | .hlt => []

/-- The cause of each fatal kind, with the detail `z` it records, in a state whose step raises it (the table of R126). -/
def HasCause (s : State) (z : Int) : FatalKind → Prop
  | .invalidOpcode => (∃ e, decode (wordsAtPc s) = .error e) ∧ z = (s.mem.read s.pc.val).val
  | .invalidWriteTarget => ∃ i k d, decode (wordsAtPc s) = .ok i ∧ writeParam? i = some (k, d) ∧ d.mode = .immediate ∧ z = k
  | .invalidAddress => ∃ i, decode (wordsAtPc s) = .ok i ∧
      ((∃ p ∈ paramsOf i, BadAddress s p z) ∨
       (∃ a p y, i ∈ [Instr.jnz a p, Instr.jz a p] ∧ readOperand s p = .ok y ∧ z = y.val ∧ z < 0) ∨
       (∃ a x, i = .arb a ∧ readOperand s a = .ok x ∧ z = s.rb.val + x.val ∧ (z < 0 ∨ (Config.addrMax : Int) < z)) ∨
       (i ≠ .hlt ∧ z = s.pc.val + i.width ∧ (Config.addrMax : Int) < z))
  | .malformedInstructionBoundary => False
  | .arithmeticOverflow => ∃ a b d x y, readOperand s a = .ok x ∧ readOperand s b = .ok y ∧
      (decode (wordsAtPc s) = .ok (.add a b d) ∧ z = x.val + y.val ∨
       decode (wordsAtPc s) = .ok (.mul a b d) ∧ z = x.val * y.val) ∧ (z < Config.wordMin ∨ Config.wordMax < z)
  | .capacityExceeded => ∃ i k d a, decode (wordsAtPc s) = .ok i ∧ writeParam? i = some (k, d) ∧
      writeAddr s k d = .ok a ∧ z = a.val ∧ s.params.memCapacity ≤ a.val

/-- In `t`, reached from `s` by a store of `r` at `pc`'s new value `dst`, the next step fetches `r` as its instruction word,
with the Words that stood behind `dst` as parameter words. -/
def FetchesStored (s t : State) (dst : Addr) (r : Word) : Prop :=
  t.pc = dst ∧ t.mem.read dst.val = r ∧
    fetch t = decode [r, s.mem.read (dst.val + 1), s.mem.read (dst.val + 2), s.mem.read (dst.val + 3)] ∧
    (∀ i, fetch t = .ok i → step t = exec i t) ∧
    (∀ e, fetch t = .error e → step t = .next (faultedWith t .invalidOpcode r.val))

/-- At some point of the life of a program started by `INIT`, finitely many steps lead to one that leaves the status `st`, in
the state `t`; `output` is the output at that point followed by what those steps appended to `OUTQ`. -/
def EndsAfterSteps (st : Status) (params : Config.Params) (program : List Word) (t : State) (output : List Word) : Prop :=
  ∃ talk s before added, Session params program talk s before ∧ StepsTo st s t ∧
    t.outq = s.outq ++ added ∧ output = before ++ added

/-- The mode digits an opcode of `n` parameters does not use are 0 (R81: the canonical encoding). -/
def IsCanonical (h : Head) : Prop :=
  (h.op.params < 1 → h.m1 = .position) ∧ (h.op.params < 2 → h.m2 = .position) ∧ (h.op.params < 3 → h.m3 = .position)

/-- Two heads agree on the operation and on the mode digits it uses (R75). -/
def SameUsedFields (h h' : Head) : Prop :=
  h.op = h'.op ∧ (1 ≤ h.op.params → h.m1 = h'.m1) ∧ (2 ≤ h.op.params → h.m2 = h'.m2) ∧ (3 ≤ h.op.params → h.m3 = h'.m3)

end Sys2Proof.Statements

open Sys2Proof Sys2Proof.Machine Sys2Proof.Statements

/-! ## Encoding -/

/-- R71, R73, R81, R82: words the spec itself writes out, one for each family and mode, decode as the spec says. -/
def Obligations.DecodeReadsTheWordsTheSpecWritesOut : Prop :=
  decode [lit 21001, lit 9, lit 3, lit 2] = .ok (.add ⟨.position, lit 9⟩ ⟨.immediate, lit 3⟩ ⟨.relative, lit 2⟩) ∧
  decode [lit 1006, lit 101, lit 0] = .ok (.jz ⟨.position, lit 101⟩ ⟨.immediate, lit 0⟩) ∧
  decode [lit 204, lit (-1)] = .ok (.out ⟨.relative, lit (-1)⟩) ∧
  decode [lit 109, lit 1] = .ok (.arb ⟨.immediate, lit 1⟩) ∧
  decode [lit 99] = .ok .hlt

/-- R70, R73, R81: decoding the encoding of any instruction, well-formed or not, whatever Words follow it, gives the
instruction back with every operand. -/
def Obligations.DecodeOfEncodeIsTheInstruction : Prop :=
  ∀ (i : Instr) (rest : List Word), decode (encode i ++ rest) = .ok i

/-- R81: an instruction word that decodes with digit 0 in every position its opcode does not use is the instruction word of
its instruction, and its parameter words follow it. -/
def Obligations.EncodeOfCanonicalDecodeIsTheWord : Prop :=
  ∀ (w : Word) (h : Head) (P : Nat → Word), decodeHead w = .ok h → IsCanonical h →
    encode (h.toInstr P) = w :: (List.range h.op.params).map fun k => P (k + 1)

/-- R72, R73, R75, R80 (the spec's decisions D5, D6): a Word decodes exactly when it is in `[0, 99999]`, its last two decimal
digits are an opcode of the table, and each of its next three digits is 0, 1 or 2; the fields are those digits; and the mode
digits in positions the opcode does not use have no effect. -/
def Obligations.WordDecodesExactlyWhenItsDigitsAreLegal : Prop :=
  (∀ (w : Word) (h : Head), decodeHead w = .ok h ↔
    0 ≤ w.val ∧ w.val ≤ 99999 ∧ w.val % 100 = h.op.code ∧ w.val / 100 % 10 = h.m1.digit ∧
      w.val / 1000 % 10 = h.m2.digit ∧ w.val / 10000 % 10 = h.m3.digit) ∧
  (∀ (w w' : Word) (h h' : Head) (P : Nat → Word), decodeHead w = .ok h → decodeHead w' = .ok h' → SameUsedFields h h' →
    h.toInstr P = h'.toInstr P)

/-- R73, R127, R134: a step that fetches a Word which does not decode enters the fault `InvalidOpcode` with that Word as
detail. -/
def Obligations.UndecodableWordFaultsInvalidOpcode : Prop :=
  ∀ (s : State) (e : DecodeError), s.status ≠ .faulted → decode (wordsAtPc s) = .error e →
    step s = .next (faultedWith s .invalidOpcode (s.mem.read s.pc.val).val)

/-- R107: when the Words at `pc` decode to an instruction and the instance has not faulted, a step is that instruction's
meaning at that state, with nothing added around it. -/
def Obligations.StepRunsTheDecodedInstruction : Prop :=
  ∀ (s : State) (i : Instr), s.status ≠ .faulted → decode (wordsAtPc s) = .ok i → step s = exec i s

/-- R70, R81, R107: an instruction whose encoding stands in memory at `pc` runs. -/
def Obligations.EncodedInstructionAtPcRuns : Prop :=
  ∀ (s : State) (i : Instr), s.status ≠ .faulted →
    (∀ k < i.width, s.mem.read (s.pc.val + k) = (encode i).getD k Word.zero) → step s = exec i s

/-! ## Operands -/

/-- R54, R78 (upper bound: the spec's decision D3): the value of a read parameter in each of the three modes, and when there
is none. -/
def Obligations.ReadOperandFollowsItsMode : Prop :=
  ∀ (s : State) (p : Word),
    readOperand s ⟨.immediate, p⟩ = .ok p ∧
    (0 ≤ p.val → readOperand s ⟨.position, p⟩ = .ok (s.mem.read p.val.toNat)) ∧
    (p.val < 0 → readOperand s ⟨.position, p⟩ = .error (.invalidAddress p.val)) ∧
    (0 ≤ (s.rb.val : Int) + p.val → (s.rb.val : Int) + p.val ≤ Config.addrMax →
      readOperand s ⟨.relative, p⟩ = .ok (s.mem.read ((s.rb.val : Int) + p.val).toNat)) ∧
    ((s.rb.val : Int) + p.val < 0 ∨ (Config.addrMax : Int) < s.rb.val + p.val →
      readOperand s ⟨.relative, p⟩ = .error (.invalidAddress (s.rb.val + p.val)))

/-- R55, R78 (upper bound: D3): the address of a write parameter in each of the three modes, and when there is none. -/
def Obligations.WriteAddressFollowsItsMode : Prop :=
  ∀ (s : State) (i : Nat) (p : Word),
    writeAddr s i ⟨.immediate, p⟩ = .error (.invalidWriteTarget i) ∧
    (∀ a : Addr, (a.val : Int) = p.val → writeAddr s i ⟨.position, p⟩ = .ok a) ∧
    (p.val < 0 → writeAddr s i ⟨.position, p⟩ = .error (.invalidAddress p.val)) ∧
    (∀ a : Addr, (a.val : Int) = s.rb.val + p.val → writeAddr s i ⟨.relative, p⟩ = .ok a) ∧
    ((s.rb.val : Int) + p.val < 0 ∨ (Config.addrMax : Int) < s.rb.val + p.val →
      writeAddr s i ⟨.relative, p⟩ = .error (.invalidAddress (s.rb.val + p.val)))

/-! ## Memory -/

/-- R45, R46: in canonical form (log 3) a memory is the sequence `MEM[0 .. len-1]` it stands for: a read gives `MEM[a]` below
`len` and 0 from there on. -/
def Obligations.MemoryReadIsTheArrayRead : Prop :=
  ∀ (m : Memory) (a : Nat), m.wf = true →
    m.toList.length = m.len ∧ m.read a = if a < m.len then m.toList.getD a Word.zero else Word.zero

/-- R45, R47: in canonical form (log 3) a write grows the sequence with zeros up to the address, if it lies beyond the end,
and then replaces the one Word there, even when that Word is 0. -/
def Obligations.MemoryWriteIsTheArrayWrite : Prop :=
  ∀ (m : Memory) (a : Nat) (v : Word), m.wf = true →
    (m.write a v).toList = (m.toList ++ List.replicate (a + 1 - m.len) Word.zero).set a v

/-- R45 (log 3): a memory in canonical form is determined by its length and its reads, so that equal memories are equal
data. -/
def Obligations.CanonicalMemoriesWithEqualReadsAreEqual : Prop :=
  ∀ m m' : Memory, m.wf = true → m'.wf = true → m.len = m'.len → (∀ a, m.read a = m'.read a) → m = m'

/-- R48, and of R47 the address and the capacity check (the spec's decision D4): `len` never decreases; a step changes memory only by the `MemWrite`
of an instruction that completes, at the address of its write parameter and below the capacity, and every other step leaves
memory as it was; `INIT` sets `len`; the queue commands and the observations leave it unchanged. -/
def Obligations.MemoryLengthNeverDecreases : Prop :=
  (∀ s t : State, step s = .next t →
    s.mem.len ≤ t.mem.len ∧
    (t.status ≠ .ready → t.mem = s.mem) ∧
    (∀ i, fetch s = .ok i → writeParam? i = none → t.mem = s.mem) ∧
    (∀ i k d, fetch s = .ok i → writeParam? i = some (k, d) → t.status = .ready →
      ∃ a, writeAddr s k d = .ok a ∧ a.val < s.params.memCapacity ∧ ∃ v, t.mem = s.mem.write a.val v)) ∧
  (∀ (c : Command) (s : State) (r : Response) (t : State), Responds c s r t →
    s.mem.len ≤ t.mem.len ∧ (c ≠ .step → c ≠ .run → t.mem = s.mem)) ∧
  (∀ (params : Config.Params) (program : List Word), (initState params program).mem.len = program.length)

/-- R47, R131 (the spec's decision D4): no step makes memory longer than the capacity, unless `INIT` already had (log 12). -/
def Obligations.StepNeverGrowsMemoryBeyondCapacity : Prop :=
  ∀ s t : State, step s = .next t → t.mem.len ≤ max s.mem.len s.params.memCapacity ∧ t.params = s.params

/-- R56, R60, R148: a Word that ADD, MUL, LT, EQ or IN stores where `pc` goes next is the instruction word the next step
fetches, and the Words behind it are its parameter words. -/
def Obligations.StoredWordIsFetchedByTheNextStep : Prop :=
  (∀ (s : State) (a b d : Param) (x y r : Word) (dst : Addr), s.mem.wf = true →
    readOperand s a = .ok x → readOperand s b = .ok y → writeAddr s 3 d = .ok dst →
    dst.val = s.pc.val + 4 → dst.val < s.params.memCapacity →
    (r.val = x.val + y.val → ∃ t, exec (.add a b d) s = .next t ∧ FetchesStored s t dst r) ∧
    (r.val = x.val * y.val → ∃ t, exec (.mul a b d) s = .next t ∧ FetchesStored s t dst r) ∧
    (r.val = (if x.val < y.val then 1 else 0) → ∃ t, exec (.lt a b d) s = .next t ∧ FetchesStored s t dst r) ∧
    (r.val = (if x = y then 1 else 0) → ∃ t, exec (.eq a b d) s = .next t ∧ FetchesStored s t dst r)) ∧
  (∀ (s : State) (d : Param) (v : Word) (q : List Word) (dst : Addr), s.mem.wf = true →
    writeAddr s 1 d = .ok dst → s.inq = v :: q → dst.val = s.pc.val + 2 → dst.val < s.params.memCapacity →
    ∃ t, exec (.inp d) s = .next t ∧ FetchesStored s t dst v)

/-! ## What each instruction does when it completes -/

/-- R91: ADD writes the exact sum to the address of parameter 3 and advances `pc` by 4; nothing else changes. -/
def Obligations.AddStoresTheExactSum : Prop :=
  ∀ (s : State) (a b d : Param) (x y r : Word) (dst pc' : Addr),
    readOperand s a = .ok x → readOperand s b = .ok y → writeAddr s 3 d = .ok dst →
    r.val = x.val + y.val → pc'.val = s.pc.val + 4 → dst.val < s.params.memCapacity →
    exec (.add a b d) s = .next { s with mem := s.mem.write dst.val r, pc := pc', status := .ready }

/-- R92: MUL writes the exact product to the address of parameter 3 and advances `pc` by 4; nothing else changes. -/
def Obligations.MulStoresTheExactProduct : Prop :=
  ∀ (s : State) (a b d : Param) (x y r : Word) (dst pc' : Addr),
    readOperand s a = .ok x → readOperand s b = .ok y → writeAddr s 3 d = .ok dst →
    r.val = x.val * y.val → pc'.val = s.pc.val + 4 → dst.val < s.params.memCapacity →
    exec (.mul a b d) s = .next { s with mem := s.mem.write dst.val r, pc := pc', status := .ready }

/-- R93: LT writes 1 if the first operand is less than the second as signed integers and 0 otherwise, and advances `pc` by
4; nothing else changes. -/
def Obligations.LtStoresTheSignedComparison : Prop :=
  ∀ (s : State) (a b d : Param) (x y r : Word) (dst pc' : Addr),
    readOperand s a = .ok x → readOperand s b = .ok y → writeAddr s 3 d = .ok dst →
    (x.val < y.val → r.val = 1) → (y.val ≤ x.val → r.val = 0) →
    pc'.val = s.pc.val + 4 → dst.val < s.params.memCapacity →
    exec (.lt a b d) s = .next { s with mem := s.mem.write dst.val r, pc := pc', status := .ready }

/-- R94: EQ writes 1 if the operands are equal and 0 otherwise, and advances `pc` by 4; nothing else changes. -/
def Obligations.EqStoresTheEqualityTest : Prop :=
  ∀ (s : State) (a b d : Param) (x y r : Word) (dst pc' : Addr),
    readOperand s a = .ok x → readOperand s b = .ok y → writeAddr s 3 d = .ok dst →
    (x = y → r.val = 1) → (x ≠ y → r.val = 0) →
    pc'.val = s.pc.val + 4 → dst.val < s.params.memCapacity →
    exec (.eq a b d) s = .next { s with mem := s.mem.write dst.val r, pc := pc', status := .ready }

/-- R97: with a value in `INQ`, IN writes the oldest one to the address of parameter 1, removes it from `INQ` and advances
`pc` by 2; nothing else changes. -/
def Obligations.InStoresAndTakesTheOldestInput : Prop :=
  ∀ (s : State) (d : Param) (v : Word) (q : List Word) (dst pc' : Addr),
    writeAddr s 1 d = .ok dst → s.inq = v :: q → pc'.val = s.pc.val + 2 → dst.val < s.params.memCapacity →
    exec (.inp d) s = .next { s with mem := s.mem.write dst.val v, inq := q, pc := pc', status := .ready }

/-- R99: OUT, in every spelling of its word and in no other, appends the value of its parameter to `OUTQ` (0 for an address
at or beyond `len`) and advances `pc` by 2, and changes nothing else; its only faults are an operand address outside
`[0, ADDR_MAX]` and a new `pc` above `ADDR_MAX`; it never blocks, whatever `OUTQ` holds. -/
def Obligations.OutAppendsItsValue : Prop :=
  (∀ (P : Nat → Word) (a : Param), decodeFrom P = .ok (.out a) ↔ a.word = P 1 ∧ ∃ m2 m3 : Mode,
    (P 0).val = 4 + 100 * a.mode.digit + 1000 * m2.digit + 10000 * m3.digit) ∧
  (∀ (s : State) (a : Param) (pc' : Addr), GoodAddress s a → pc'.val = s.pc.val + 2 →
    ∃ x, readOperand s a = .ok x ∧ (∀ z, exactAddress s a = some z → (s.mem.len : Int) ≤ z → x.val = 0) ∧
      exec (.out a) s = .next { s with outq := s.outq ++ [x], pc := pc', status := .ready }) ∧
  (∀ (s : State) (a : Param) (z : Int), BadAddress s a z →
    exec (.out a) s = .next (faultedWith s .invalidAddress z)) ∧
  (∀ (s : State) (a : Param), GoodAddress s a → Config.addrMax < s.pc.val + 2 →
    exec (.out a) s = .next (faultedWith s .invalidAddress (s.pc.val + 2)))

/-- R101 (the check of the target: the spec's decision D8): JNZ sets `pc` to its target if its first operand is not 0 and
advances `pc` by 3 otherwise; nothing else changes. The target may have any mode (C1). -/
def Obligations.JnzJumpsWhenNotZero : Prop :=
  ∀ (s : State) (a t : Param) (x y : Word) (pc' : Addr),
    readOperand s a = .ok x → readOperand s t = .ok y → 0 ≤ y.val →
    (x.val ≠ 0 → (pc'.val : Int) = y.val) → (x.val = 0 → pc'.val = s.pc.val + 3) →
    exec (.jnz a t) s = .next { s with pc := pc', status := .ready }

/-- R102 (the check of the target: D8): JZ sets `pc` to its target if its first operand is 0 and advances `pc` by 3
otherwise; nothing else changes. The target may have any mode (C1). -/
def Obligations.JzJumpsWhenZero : Prop :=
  ∀ (s : State) (a t : Param) (x y : Word) (pc' : Addr),
    readOperand s a = .ok x → readOperand s t = .ok y → 0 ≤ y.val →
    (x.val = 0 → (pc'.val : Int) = y.val) → (x.val ≠ 0 → pc'.val = s.pc.val + 3) →
    exec (.jz a t) s = .next { s with pc := pc', status := .ready }

/-- R103: HLT, in every spelling of its word and in no other, halts and raises nothing: `STATUS` becomes `HALTED`, `pc` is
not advanced and nothing else changes; a later step of the halted instance halts again; and only HLT halts. -/
def Obligations.HltHaltsWithoutAdvancing : Prop :=
  (∀ P : Nat → Word, decodeFrom P = .ok .hlt ↔ ∃ m1 m2 m3 : Mode,
    (P 0).val = 99 + 100 * m1.digit + 1000 * m2.digit + 10000 * m3.digit) ∧
  (∀ s : State, exec .hlt s = .next { s with status := .halted }) ∧
  (∀ s t : State, step s = .next t → t.status = .halted →
    t = { s with status := .halted } ∧ fetch s = .ok .hlt ∧ step t = .next t)

/-- R104 (the bounds: the spec's decisions D3, D19): ARB adds its operand to `rb` and advances `pc` by 2; nothing else
changes. -/
def Obligations.ArbAddsToTheRelativeBase : Prop :=
  ∀ (s : State) (a : Param) (x : Word) (rb' pc' : Addr),
    readOperand s a = .ok x → (rb'.val : Int) = s.rb.val + x.val → pc'.val = s.pc.val + 2 →
    exec (.arb a) s = .next { s with rb := rb', pc := pc', status := .ready }

/-! ## Frames -/

/-- R29, R51, R90, R96: whatever ADD, MUL, LT and EQ answer (completion or fault), `rb`, both queues and the parameters are
unchanged, `FAULT` is unchanged unless the instruction faults, and every Word of memory is unchanged except the one at the
address of parameter 3. -/
def Obligations.ArithmeticFrame : Prop :=
  ∀ (s t : State) (a b d : Param) (i : Instr), s.mem.wf = true →
    i ∈ [Instr.add a b d, Instr.mul a b d, Instr.lt a b d, Instr.eq a b d] → exec i s = .next t →
    t.params = s.params ∧ t.rb = s.rb ∧ t.inq = s.inq ∧ t.outq = s.outq ∧
    (t.status ≠ .faulted → t.fault = s.fault) ∧
    (∀ dst : Addr, writeAddr s 3 d = .ok dst → ∀ x : Nat, x ≠ dst.val → t.mem.read x = s.mem.read x) ∧
    (t.status = .faulted → t.mem = s.mem)

/-- R97, R98: whatever IN answers, `rb`, `OUTQ` and the parameters are unchanged, `FAULT` is unchanged unless it faults, and
every Word of memory is unchanged except the one at the address of parameter 1; when it faults or blocks, all of memory and
`INQ` are unchanged. -/
def Obligations.InputFrame : Prop :=
  ∀ (s t : State) (d : Param), s.mem.wf = true → exec (.inp d) s = .next t →
    t.params = s.params ∧ t.rb = s.rb ∧ t.outq = s.outq ∧ (t.status ≠ .faulted → t.fault = s.fault) ∧
    (∀ dst : Addr, writeAddr s 1 d = .ok dst → ∀ x : Nat, x ≠ dst.val → t.mem.read x = s.mem.read x) ∧
    (t.status ≠ .ready → t.mem = s.mem ∧ t.inq = s.inq ∧ t.pc = s.pc)

/-- R99, R101, R102, R103, R104: OUT, JNZ, JZ, ARB and HLT store nothing (all of memory and `len` are unchanged) and take no
input; only ARB may change `rb`, only OUT may change `OUTQ`; `FAULT` is unchanged unless the instruction faults. -/
def Obligations.NonStoringFrame : Prop :=
  ∀ (s t : State) (a p : Param) (i : Instr),
    i ∈ [Instr.out a, Instr.jnz a p, Instr.jz a p, Instr.arb a, Instr.hlt] → exec i s = .next t →
    t.params = s.params ∧ t.mem = s.mem ∧ t.inq = s.inq ∧ (t.status ≠ .faulted → t.fault = s.fault) ∧
    (i ≠ .arb a → t.rb = s.rb) ∧ (i ≠ .out a → t.outq = s.outq)

/-! ## Where instructions fault -/

/-- R128: `InvalidWriteTarget` is raised exactly by an Immediate write parameter: parameter 3 of ADD, MUL, LT and EQ and
parameter 1 of IN, whatever else holds. A jump target never raises it (C1). -/
def Obligations.InvalidWriteTargetExactlyForImmediateTargets : Prop :=
  ∀ (i : Instr) (s : State), ∃ t, exec i s = .next t ∧
    ((t.status = .faulted ∧ t.fault.kind = .invalidWriteTarget) ↔ i.wellFormed = false)

/-- R126, R133, R134 (the spec's decisions D7, D9, D10): the record of an Immediate write target, whose detail is the
parameter's number, also when other conditions hold and when `INQ` is empty. -/
def Obligations.ImmediateWriteTargetRecord : Prop :=
  (∀ (s : State) (a b d : Param) (i : Instr), d.mode = .immediate →
    i ∈ [Instr.add a b d, Instr.mul a b d, Instr.lt a b d, Instr.eq a b d] →
    exec i s = .next (faultedWith s .invalidWriteTarget 3)) ∧
  (∀ (s : State) (d : Param), d.mode = .immediate → exec (.inp d) s = .next (faultedWith s .invalidWriteTarget 1))

/-- R129, R133 item 4 (the spec's decisions D3, D7): an operand address outside `[0, ADDR_MAX]` faults `InvalidAddress` with
the exact integer as detail, the first such parameter in the order 1, 2, 3, before the instruction does anything else. -/
def Obligations.AddressFaultsComeInParameterOrder : Prop :=
  (∀ (s : State) (a b d : Param) (i : Instr) (z : Int), d.mode ≠ .immediate →
    i ∈ [Instr.add a b d, Instr.mul a b d, Instr.lt a b d, Instr.eq a b d] →
    BadAddress s a z ∨ (GoodAddress s a ∧ BadAddress s b z) ∨ (GoodAddress s a ∧ GoodAddress s b ∧ BadAddress s d z) →
    exec i s = .next (faultedWith s .invalidAddress z)) ∧
  (∀ (s : State) (a p : Param) (i : Instr) (z : Int), i ∈ [Instr.jnz a p, Instr.jz a p] →
    BadAddress s a z ∨ (GoodAddress s a ∧ BadAddress s p z) →
    exec i s = .next (faultedWith s .invalidAddress z)) ∧
  (∀ (s : State) (a : Param) (i : Instr) (z : Int), i ∈ [Instr.inp a, Instr.out a, Instr.arb a] → BadAddress s a z →
    exec i s = .next (faultedWith s .invalidAddress z))

/-- R130 (the spec's decision D2; the order: D7): ADD and MUL whose exact result is no Word fault `ArithmeticOverflow` with
the exact result as detail, whatever the capacity and `pc` are. -/
def Obligations.ResultOutsideTheWordRangeFaults : Prop :=
  ∀ (s : State) (a b d : Param) (x y : Word) (dst : Addr),
    readOperand s a = .ok x → readOperand s b = .ok y → writeAddr s 3 d = .ok dst →
    (x.val + y.val < Config.wordMin ∨ Config.wordMax < x.val + y.val →
      exec (.add a b d) s = .next (faultedWith s .arithmeticOverflow (x.val + y.val))) ∧
    (x.val * y.val < Config.wordMin ∨ Config.wordMax < x.val * y.val →
      exec (.mul a b d) s = .next (faultedWith s .arithmeticOverflow (x.val * y.val)))

/-- R131 (the spec's decision D4; the order: D7): an instruction that reached its write and whose write address is at or
above `MEM_CAPACITY` faults `CapacityExceeded` with that address; IN keeps its value. -/
def Obligations.WriteAtOrAboveCapacityFaults : Prop :=
  (∀ (s : State) (a b d : Param) (x y : Word) (dst pc' : Addr),
    readOperand s a = .ok x → readOperand s b = .ok y → writeAddr s 3 d = .ok dst →
    pc'.val = s.pc.val + 4 → s.params.memCapacity ≤ dst.val →
    (Config.wordMin ≤ x.val + y.val → x.val + y.val ≤ Config.wordMax →
      exec (.add a b d) s = .next (faultedWith s .capacityExceeded dst.val)) ∧
    (Config.wordMin ≤ x.val * y.val → x.val * y.val ≤ Config.wordMax →
      exec (.mul a b d) s = .next (faultedWith s .capacityExceeded dst.val)) ∧
    exec (.lt a b d) s = .next (faultedWith s .capacityExceeded dst.val) ∧
    exec (.eq a b d) s = .next (faultedWith s .capacityExceeded dst.val)) ∧
  (∀ (s : State) (d : Param) (dst pc' : Addr), writeAddr s 1 d = .ok dst → s.inq ≠ [] →
    pc'.val = s.pc.val + 2 → s.params.memCapacity ≤ dst.val →
    exec (.inp d) s = .next (faultedWith s .capacityExceeded dst.val))

/-- R100, R104, R129 c and d, R133 item 6 (the spec's decisions D3, D8, D19): a negative jump target faults `InvalidAddress`
with the target as detail, whether or not the jump would be taken; so does ARB whose new base would lie outside
`[0, ADDR_MAX]`, with the exact sum as detail. -/
def Obligations.JumpTargetAndRelativeBaseFaults : Prop :=
  (∀ (s : State) (a p : Param) (x y : Word) (i : Instr), i ∈ [Instr.jnz a p, Instr.jz a p] →
    readOperand s a = .ok x → readOperand s p = .ok y → y.val < 0 →
    exec i s = .next (faultedWith s .invalidAddress y.val)) ∧
  (∀ (s : State) (a : Param) (x : Word), readOperand s a = .ok x →
    (s.rb.val : Int) + x.val < 0 ∨ (Config.addrMax : Int) < s.rb.val + x.val →
    exec (.arb a) s = .next (faultedWith s .invalidAddress (s.rb.val + x.val)))

/-- R129 e (the spec's decision D21; the order: D7): an instruction that would advance `pc` above `ADDR_MAX` faults
`InvalidAddress` with the exact new `pc`, whatever the capacity is. -/
def Obligations.PcPastTheLastAddressFaults : Prop :=
  (∀ (s : State) (a b d : Param) (x y : Word) (dst : Addr),
    readOperand s a = .ok x → readOperand s b = .ok y → writeAddr s 3 d = .ok dst → Config.addrMax < s.pc.val + 4 →
    (Config.wordMin ≤ x.val + y.val → x.val + y.val ≤ Config.wordMax →
      exec (.add a b d) s = .next (faultedWith s .invalidAddress (s.pc.val + 4))) ∧
    (Config.wordMin ≤ x.val * y.val → x.val * y.val ≤ Config.wordMax →
      exec (.mul a b d) s = .next (faultedWith s .invalidAddress (s.pc.val + 4))) ∧
    exec (.lt a b d) s = .next (faultedWith s .invalidAddress (s.pc.val + 4)) ∧
    exec (.eq a b d) s = .next (faultedWith s .invalidAddress (s.pc.val + 4))) ∧
  (∀ (s : State) (d : Param) (dst : Addr), writeAddr s 1 d = .ok dst → s.inq ≠ [] → Config.addrMax < s.pc.val + 2 →
    exec (.inp d) s = .next (faultedWith s .invalidAddress (s.pc.val + 2))) ∧
  (∀ (s : State) (a p : Param) (x y : Word), readOperand s a = .ok x → readOperand s p = .ok y → 0 ≤ y.val →
    Config.addrMax < s.pc.val + 3 →
    (x.val = 0 → exec (.jnz a p) s = .next (faultedWith s .invalidAddress (s.pc.val + 3))) ∧
    (x.val ≠ 0 → exec (.jz a p) s = .next (faultedWith s .invalidAddress (s.pc.val + 3)))) ∧
  (∀ (s : State) (a : Param) (x : Word) (rb' : Addr), readOperand s a = .ok x → (rb'.val : Int) = s.rb.val + x.val →
    Config.addrMax < s.pc.val + 2 → exec (.arb a) s = .next (faultedWith s .invalidAddress (s.pc.val + 2)))

/-- R27, R134 (the spec's decision D9): every fault of every instruction is precise: the record names the instruction at
`pc`, and beside it and `STATUS` nothing has changed. -/
def Obligations.FaultsArePrecise : Prop :=
  ∀ s t : State, step s = .next t → t.status = .faulted →
    t = { s with status := .faulted, fault := t.fault } ∧ t.fault.pc = s.pc ∧ t.fault.word = s.mem.read s.pc.val

/-- R26, R126 to R132 (the spec's decisions D2 to D4, D8, D10, D14, D18, D19, D21): the encodings of `STATUS` and of the fatal
kinds; whenever a step faults, the cause the table of R126 gives for its kind holds, with the detail it gives; and
`MalformedInstructionBoundary` has no cause, so that every fault's code is 1, 2, 3, 5 or 6. -/
def Obligations.FaultKindsHaveTheirCodesAndCauses : Prop :=
  [Status.ready, .blocked, .halted, .faulted].map Status.code = [0, 1, 2, 3] ∧
  [FatalKind.invalidOpcode, .invalidWriteTarget, .invalidAddress, .malformedInstructionBoundary, .arithmeticOverflow,
    .capacityExceeded].map FatalKind.code = [1, 2, 3, 4, 5, 6] ∧
  ∀ s t : State, step s = .next t → t.status = .faulted →
    HasCause s t.fault.detail t.fault.kind ∧
    t.fault.kind ≠ .malformedInstructionBoundary ∧ t.fault.kind.code ∈ [1, 2, 3, 5, 6]

/-- R135 (the spec's decision D9): once an instance has faulted, whatever commands follow, its state never changes again;
`READ_STATUS` is answered with `FAULTED` and the record, and every other command with `Refused`. -/
def Obligations.FaultedInstanceRefusesForEver : Prop :=
  ∀ (s t : State) (talk : List (Command × Response)), s.status = .faulted → Conversation s talk t →
    t = s ∧ step s = .refused .instanceFaulted ∧
    ∀ cr ∈ talk, (cr.1 = .readStatus → cr.2 = .status .faulted (some s.fault)) ∧ (cr.1 ≠ .readStatus → cr.2 = .refused)

/-! ## Suspension and halting -/

/-- R98: a step of an IN whose target resolves and that finds `INQ` empty returns `Blocked` and changes nothing but the
recorded result, whatever the capacity; no other step blocks, so that every step that blocks is of such an IN; and the same instruction is fetched again after the host
appends input. -/
def Obligations.OnlyAStarvedInBlocks : Prop :=
  (∀ (s : State) (d : Param) (dst : Addr), s.status ≠ .faulted → fetch s = .ok (.inp d) → writeAddr s 1 d = .ok dst →
    s.inq = [] → step s = .next { s with status := .blocked }) ∧
  (∀ s t : State, step s = .next t → t.status = .blocked →
    s.inq = [] ∧ t = { s with status := .blocked } ∧
    ∃ d dst, fetch s = .ok (.inp d) ∧ writeAddr s 1 d = .ok dst ∧
      ∀ vs : List Word, fetch (writePort vs t) = .ok (.inp d))

/-- R120: after a step returned `Blocked`, a step with `INQ` still empty blocks again, and a step after `WRITE_PORT` does
exactly what it would have done had the input been there before the blocked step. -/
def Obligations.BlockedStepResumes : Prop :=
  ∀ s t : State, step s = .next t → t.status = .blocked →
    step t = .next t ∧ ∀ vs : List Word, step (writePort vs t) = step (writePort vs s)

/-- R119: after a step returned `Halted`, whatever commands follow, memory, `pc` and `rb` never change again and every later
step halts. -/
def Obligations.HaltingIsStable : Prop :=
  ∀ (s t u : State) (talk : List (Command × Response)), step s = .next t → t.status = .halted → Conversation t talk u →
    u.mem = t.mem ∧ u.pc = t.pc ∧ u.rb = t.rb ∧ step u = .next u ∧ u.status = .halted

/-- R107, R108 (the spec's decision D15 for `Continue`): a step always answers, and never with a fault of the model: a
faulted instance refuses, and every other reaches a next state that records exactly one of the four results. -/
def Obligations.StepAlwaysAnswers : Prop :=
  ∀ s : State, (s.status = .faulted → step s = .refused .instanceFaulted ∧ stepCommand s = (.refused, s)) ∧
    (s.status ≠ .faulted → ∃ t, step s = .next t ∧ stepCommand s = (recordedResult t, t) ∧ recordedResult t ≠ .refused)

/-- R26, R33 and S1 of 93 (log 2): neither the recorded result nor an old `FAULT` value affects what an instance that has not
faulted answers, or the state it reaches, beyond `FAULT` itself while it is unreadable. -/
def Obligations.RecordedResultAndOldFaultDoNotMatter : Prop :=
  ∀ (s t : State) (st : Status) (f : FaultRecord), s.status ≠ .faulted → st ≠ .faulted → step s = .next t →
    ∃ f', step { s with status := st, fault := f } = .next { t with fault := f' } ∧
      (t.status = .faulted → f' = t.fault) ∧ (t.status ≠ .faulted → f' = f)

/-! ## Rules of the whole machine -/

/-- R22: `rb` is in `[0, ADDR_MAX]`; every Relative parameter reads it; among the instructions only ARB writes it, and among
the host's commands none but `STEP` and `RUN` and, for the new instance, `INIT`, which sets it to 0. -/
def Obligations.RelativeBaseIsWrittenOnlyByArb : Prop :=
  (∀ s : State, s.rb.val ≤ Config.addrMax) ∧
  (∀ (s : State) (p : Word) (a : Addr) (i : Nat), (a.val : Int) = s.rb.val + p.val →
    readOperand s ⟨.relative, p⟩ = .ok (s.mem.read a.val) ∧ writeAddr s i ⟨.relative, p⟩ = .ok a) ∧
  (∀ s t : State, step s = .next t → t.rb ≠ s.rb → ∃ a, fetch s = .ok (.arb a)) ∧
  (∀ (c : Command) (s : State) (r : Response) (t : State), Responds c s r t → c ≠ .step → c ≠ .run → t.rb = s.rb) ∧
  (∀ (params : Config.Params) (program : List Word), (initState params program).rb.val = 0)

/-- R96: an IN that completes takes the head of `INQ` and leaves `OUTQ`; an OUT that completes appends the value of its operand
to `OUTQ` and leaves `INQ`; both occupy two Words and advance `pc` by 2; and no step of another instruction, nor one that
does not complete, touches a queue. -/
def Obligations.QueuesAreTouchedOnlyByInAndOut : Prop :=
  (∀ s t : State, step s = .next t →
    (t.inq ≠ s.inq → t.status = .ready ∧ ∃ d v, fetch s = .ok (.inp d) ∧ s.inq = v :: t.inq) ∧
    (t.outq ≠ s.outq → t.status = .ready ∧
      ∃ a v, fetch s = .ok (.out a) ∧ readOperand s a = .ok v ∧ t.outq = s.outq ++ [v])) ∧
  (∀ (d : Param) (s t : State), exec (.inp d) s = .next t → t.status = .ready →
    (∃ v, s.inq = v :: t.inq) ∧ t.outq = s.outq ∧ t.pc.val = s.pc.val + 2) ∧
  (∀ (a : Param) (s t : State), exec (.out a) s = .next t → t.status = .ready →
    (∃ v, readOperand s a = .ok v ∧ t.outq = s.outq ++ [v]) ∧ t.inq = s.inq ∧ t.pc.val = s.pc.val + 2) ∧
  (∀ a : Param, (Instr.inp a).width = 2 ∧ (Instr.out a).width = 2)

/-- R59, R107, R109, R117 (the spec's decision D13), R123: no command of the host but `STEP` and `RUN` changes memory, `pc`,
`rb`, `STATUS`, `FAULT` or the parameters; the observations and `CLONE` change nothing at all; and the observations answer
`STATUS` (with the record when it is `FAULTED`), `MemRead(a)`, `len`, and `(pc, rb)`. -/
def Obligations.HostCommandsExecuteNothing : Prop :=
  (∀ (c : Command) (s : State) (r : Response) (t : State), Responds c s r t → c ≠ .step → c ≠ .run →
    t.mem = s.mem ∧ t.pc = s.pc ∧ t.rb = s.rb ∧ t.status = s.status ∧ t.fault = s.fault ∧ t.params = s.params ∧
    (c ∈ [Command.clone, .readStatus, .peekLen, .peekRegs] ∨ (∃ a, c = .peek a) → t = s)) ∧
  (∀ s : State, s.status ≠ .faulted → ∀ (r : Response) (t : State),
    (Responds .readStatus s r t ↔ r = .status s.status none ∧ t = s) ∧
    (∀ a, Responds (.peek a) s r t ↔ r = .word (s.mem.read a) ∧ t = s) ∧
    (Responds .peekLen s r t ↔ r = .length s.mem.len ∧ t = s) ∧
    (Responds .peekRegs s r t ↔ r = .regs s.pc s.rb ∧ t = s)) ∧
  (∀ s : State, s.status = .faulted → ∀ (r : Response) (t : State),
    Responds .readStatus s r t ↔ r = .status .faulted (some s.fault) ∧ t = s)

/-- R112 (the spec's decisions D24, D9 for a faulted instance), R109: `WRITE_PORT` appends the Words to `INQ` in order,
always succeeds, and changes nothing else. -/
def Obligations.WritePortAppendsInOrder : Prop :=
  ∀ (s : State) (vs : List Word) (r : Response) (t : State), s.status ≠ .faulted →
    (Responds (.writePort vs) s r t ↔ r = .acknowledged ∧ t = { s with inq := s.inq ++ vs })

/-- R113: `READ_PORT` pops the head of `OUTQ` if there is one, and otherwise returns `None` and changes nothing. -/
def Obligations.ReadPortPopsTheHead : Prop :=
  ∀ s : State, s.status ≠ .faulted →
    (∀ (v : Word) (q : List Word), s.outq = v :: q → ∀ r t,
      Responds .readPort s r t ↔ r = .port (some v) ∧ t = { s with outq := q }) ∧
    (s.outq = [] → ∀ r t, Responds .readPort s r t ↔ r = .port none ∧ t = s)

/-- R114 (the spec's decision D16 for `n = 0`): `READ_EXACT(n)` pops exactly `n` values, oldest first, if there are so many,
and otherwise returns `None` and leaves `OUTQ` untouched. -/
def Obligations.ReadExactIsAllOrNothing : Prop :=
  ∀ (s : State) (n : Nat), s.status ≠ .faulted →
    (∀ vs q : List Word, s.outq = vs ++ q → vs.length = n → ∀ r t,
      Responds (.readExact n) s r t ↔ r = .exact (some vs) ∧ t = { s with outq := q }) ∧
    (s.outq.length < n → ∀ r t, Responds (.readExact n) s r t ↔ r = .exact none ∧ t = s)

/-- R115: `READ_ALL` returns all entries of `OUTQ`, oldest first, and leaves it empty. -/
def Obligations.ReadAllDrainsTheQueue : Prop :=
  ∀ (s : State), s.status ≠ .faulted → ∀ r t,
    (Responds .readAll s r t ↔ r = .all s.outq ∧ t = { s with outq := [] })

/-- R110 (the spec's decision D25): on an instance that has not faulted, `RUN` responds exactly when finitely many steps with
the result `Continue` lead to a step with another result, and then with that step's result and state. -/
def Obligations.RunStepsUntilAnotherResult : Prop :=
  ∀ (s t : State) (r : Response), s.status ≠ .faulted →
    (Responds .run s r t ↔
      ∃ u, Reaches s u ∧ step u = .next t ∧ t.status ≠ .ready ∧ r = .result (recordedResult t))

/-- R124: how a program ends, and its output. On an instance that has not faulted, `RUN` responds `Halted`, `Blocked` or
`Fatal` with the record exactly when its steps lead to a step that halts, blocks or faults, in the state of that step. In the
life of a program started by `INIT`, whatever the host does, the program's output is what the host has read so far followed
by what is in `OUTQ`. The program ends well, is suspended or ends badly exactly when, at some point of that life, finitely
many steps lead to one that halts, blocks or faults; its output then is the output at that point followed by what those steps
appended. Whenever a step of that life halts, the program ends well in the state after that step, which is the state before
it but for `STATUS`; and a further step keeps the final state. -/
def Obligations.RunResponseSaysHowTheProgramEnded : Prop :=
  (∀ s t : State, s.status ≠ .faulted →
    (Responds .run s (.result .halted) t ↔ StepsTo .halted s t) ∧
    (Responds .run s (.result .blocked) t ↔ StepsTo .blocked s t) ∧
    (Responds .run s (.result (.fatal t.fault)) t ↔ StepsTo .faulted s t)) ∧
  ∀ (params : Config.Params) (program : List Word),
    (∀ (talk : List (Command × Response)) (s : State) (output : List Word), Session params program talk s output →
      output = talk.flatMap (fun cr => cr.2.outputRead) ++ s.outq) ∧
    (∀ (t : State) (output : List Word),
      (EndsWell params program t output ↔ EndsAfterSteps .halted params program t output) ∧
      (IsSuspended params program t output ↔ EndsAfterSteps .blocked params program t output) ∧
      (EndsBadly params program t output ↔ EndsAfterSteps .faulted params program t output)) ∧
    (∀ (talk : List (Command × Response)) (s : State) (before : List Word) (u t : State),
      Session params program talk s before → Reaches s u → step u = .next t → t.status = .halted →
      t = { u with status := .halted } ∧
        ∃ added, u.outq = s.outq ++ added ∧ EndsWell params program t (before ++ added)) ∧
    (∀ (t : State) (output : List Word), EndsWell params program t output → fetch t = .ok .hlt ∧ step t = .next t)

/-- R101, R102, R111: a taken JNZ or JZ to itself makes `RUN` never respond, while every `STEP` returns `Continue`. -/
def Obligations.SelfJumpMakesRunNeverRespond : Prop :=
  ∀ (s : State) (a p : Param) (x y : Word), s.status ≠ .faulted →
    readOperand s a = .ok x → readOperand s p = .ok y → y.val = s.pc.val →
    (fetch s = .ok (.jnz a p) ∧ x.val ≠ 0) ∨ (fetch s = .ok (.jz a p) ∧ x.val = 0) →
    step s = .next { s with status := .ready } ∧ ∀ r t, ¬ Responds .run s r t

/-- R122: for a fixed total input, an instance that ends `HALTED` under one splitting of it over `WRITE_PORT` commands, each
followed by a `RUN` that responds, ends under every other splitting too, in exactly the same state, with the same output. -/
def Obligations.InputChunkingDoesNotMatter : Prop :=
  ∀ (s t : State) (chunks chunks' : List (List Word)), s.status ≠ .faulted → chunks' ≠ [] →
    chunks.flatten = chunks'.flatten → Feeds s chunks t → t.status = .halted → ∀ u, Feeds s chunks' u ↔ u = t

/-- R32, R62, R140: a command to one instance changes no other; its `INIT` and its dropping change no other either. -/
def Obligations.InstancesAreIsolated : Prop :=
  ∀ (fuel : Nat) (sys sys' : System) (x : HostAction) (r : Option Response) (j : Nat) (s : State),
    sys.act fuel x = some (r, sys') → sys.slot? j = some s → (∀ c, x ≠ .command j c) → x ≠ .drop j →
    sys'.slot? j = some s

/-- R116 (log 8 for the clone's `FAULT`): `CLONE` of an instance that has not faulted makes a new instance with the same
memory, registers, queues and status, leaves the source unchanged, and no later action on one of the two changes the
other. -/
def Obligations.CloneIsAValueDisjointCopy : Prop :=
  ∀ (fuel : Nat) (sys : System) (k : Nat) (s : State), sys.slot? k = some s → s.status ≠ .faulted →
    ∃ (t : State) (sys' : System), sys.act fuel (.command k .clone) = some (some (.created t), sys') ∧
      t.mem = s.mem ∧ t.pc = s.pc ∧ t.rb = s.rb ∧ t.inq = s.inq ∧ t.outq = s.outq ∧ t.status = s.status ∧
      t.params = s.params ∧ sys'.slot? k = some s ∧ sys'.slot? sys.slots.length = some t ∧
      ∀ (xs : List HostAction) (sys'' : System), System.Runs sys' xs sys'' →
        ((∀ x ∈ xs, ∃ c, x = .command sys.slots.length c) → sys''.slot? k = some s) ∧
        ((∀ x ∈ xs, ∃ c, x = .command k c) → sys''.slot? sys.slots.length = some t)

/-! ## Reset and the invariant -/

/-- R33, R143, R144, R146: `INIT(program)` places Word `i` of the program at address `i`, every other address reads 0, `len`
is the program's length, `pc` and `rb` are 0, the queues are empty and `STATUS` is `READY`; and the reset state of the model
is `INIT` of the empty program (log 7), whose first step faults `InvalidOpcode` with detail 0. -/
def Obligations.InitLoadsTheProgram : Prop :=
  (∀ (params : Config.Params) (program : List Word) (a : Nat),
    (initState params program).mem.read a = program.getD a Word.zero ∧
    (initState params program).mem.toList = program ∧
    (initState params program).mem.len = program.length ∧
    (initState params program).pc.val = 0 ∧ (initState params program).rb.val = 0 ∧
    (initState params program).inq = [] ∧ (initState params program).outq = [] ∧
    (initState params program).status = .ready ∧ (initState params program).params = params) ∧
  (∀ params : Config.Params,
    step (initState params []) = .next (faultedWith (initState params []) .invalidOpcode 0)) ∧
  State.reset = initState Config.resetParams []

/-- The invariant `State.Inv` (Sys2Proof/Safety.lean; R27, R98, R103, R134, log 3): every step keeps it. -/
def Obligations.StepKeepsTheInvariant : Prop :=
  ∀ s t : State, s.Inv → step s = .next t → t.Inv

/-- Every command of the host keeps the invariant, and so does the new instance a `CLONE` makes from a state that has it;
`INIT` makes states that have it. -/
def Obligations.HostCommandsKeepTheInvariant : Prop :=
  (∀ (c : Command) (s : State) (r : Response) (t : State), s.Inv → Responds c s r t →
    t.Inv ∧ ∀ u, r = .created u → u.Inv) ∧
  (∀ (params : Config.Params) (program : List Word), (initState params program).Inv)

/-- The reset state has the invariant. -/
def Obligations.ResetHasTheInvariant : Prop := State.reset.Inv
end

