-- ==== Sys2Proof/Laws/Decode.lean ====
section
/-! SUPPORT. The small laws of the decoder and the encoder (30_encoding.md R71 to R81). -/

namespace Sys2Proof

@[simp] theorem Mode.ofDigit?_digit (m : Mode) : Mode.ofDigit? m.digit = some m := by cases m <;> rfl

theorem Mode.ofDigit?_eq_some {n : Nat} {m : Mode} : Mode.ofDigit? n = some m ↔ m.digit = n := by
  refine ⟨fun h => ?_, fun h => h ▸ Mode.ofDigit?_digit m⟩
  unfold Mode.ofDigit? at h
  split at h
  all_goals first | cases h; rfl | cases h

theorem Mode.ofDigit?_eq_none {n : Nat} : Mode.ofDigit? n = none ↔ 2 < n := by
  rcases n with _ | _ | _ | n
  all_goals simp [Mode.ofDigit?]

@[simp] theorem Opcode.ofCode?_code (op : Opcode) : Opcode.ofCode? op.code = some op := by cases op <;> rfl

theorem Opcode.ofCode?_eq_some {n : Nat} {op : Opcode} : Opcode.ofCode? n = some op ↔ op.code = n := by
  refine ⟨fun h => ?_, fun h => h ▸ Opcode.ofCode?_code op⟩
  unfold Opcode.ofCode? at h
  split at h
  all_goals first | cases h; rfl | cases h

/-- The fields of a number decode to a head exactly when they are its code and its mode digits. -/
theorem decodeFields_eq_ok {n : Nat} {h : Head} :
    decodeFields n = .ok h ↔
      h.op.code = n % 100 ∧ h.m1.digit = digit n 2 ∧ h.m2.digit = digit n 3 ∧ h.m3.digit = digit n 4 := by
  rw [← Opcode.ofCode?_eq_some, ← Mode.ofDigit?_eq_some, ← Mode.ofDigit?_eq_some, ← Mode.ofDigit?_eq_some]
  unfold decodeFields
  split
  · next op m1 m2 m3 h₀ h₁ h₂ h₃ =>
    rw [h₀, h₁, h₂, h₃]
    cases h
    simp
  all_goals
    refine ⟨nofun, fun ⟨h₀, h₁, h₂, h₃⟩ => ?_⟩
    simp_all

/-- A Word decodes to a head exactly when it is in `[0, 99999]` and its fields do (R72, R73). -/
theorem decodeHead_eq_ok {w : Word} {h : Head} :
    decodeHead w = .ok h ↔ 0 ≤ w.val ∧ w.val ≤ (Config.instrWordMax : Int) ∧ decodeFields w.val.toNat = .ok h := by
  unfold decodeHead
  split
  · next n e => simp only [e, reduceCtorEq, false_iff]; omega
  · next n e =>
    simp only [e, Int.ofNat_eq_natCast, Int.toNat_natCast]
    split
    · exact ⟨fun h => ⟨by omega, by omega, h⟩, fun h => h.2.2⟩
    · simp only [reduceCtorEq, false_iff]; omega

/-- The decoder answers an instruction exactly when the head decodes (R73, R76). -/
theorem decodeFrom_eq_ok {P : Nat → Word} {i : Instr} :
    decodeFrom P = .ok i ↔ ∃ h, decodeHead (P 0) = .ok h ∧ h.toInstr P = i := by
  unfold decodeFrom
  split
  · next h e => simp [e]
  · next e' e => simp [e]

theorem decodeFrom_of_head {P : Nat → Word} {h : Head} (e : decodeHead (P 0) = .ok h) :
    decodeFrom P = .ok (h.toInstr P) :=
  decodeFrom_eq_ok.mpr ⟨h, e, rfl⟩

theorem decodeFrom_of_error {P : Nat → Word} {e : DecodeError} (h : decodeHead (P 0) = .error e) :
    decodeFrom P = .error e := by
  unfold decodeFrom
  rw [h]

@[simp] theorem encodeHead_val (h : Head) : (encodeHead h).val = (h.number : Int) := rfl

/-- An instruction uses of its parameter words only the first `params` of its operation (R76). -/
theorem Head.toInstr_congr (h : Head) {P Q : Nat → Word} (e : ∀ i, 1 ≤ i → i ≤ h.op.params → P i = Q i) :
    h.toInstr P = h.toInstr Q := by
  obtain ⟨op, m1, m2, m3⟩ := h
  cases op <;> simp_all [Head.toInstr, Opcode.params]

/-- An instruction's width is one more than its operation's parameter count (R34, R70). -/
theorem Head.width_toInstr (h : Head) (P : Nat → Word) : (h.toInstr P).width = h.op.params + 1 := by
  obtain ⟨op, m1, m2, m3⟩ := h
  cases op <;> rfl

end Sys2Proof
end

