-- ==== Sys2Proof/Laws/State.lean ====
section
/-! SUPPORT. One lemma per field per update, so that no proof unfolds a record update. -/

namespace Sys2Proof.Machine

/-! ## Fault entry, suspension, halt -/

section
variable (f : Fatal) (s : State)

@[simp] theorem faultEntry_params : (faultEntry f s).params = s.params := rfl
@[simp] theorem faultEntry_mem : (faultEntry f s).mem = s.mem := rfl
@[simp] theorem faultEntry_pc : (faultEntry f s).pc = s.pc := rfl
@[simp] theorem faultEntry_rb : (faultEntry f s).rb = s.rb := rfl
@[simp] theorem faultEntry_inq : (faultEntry f s).inq = s.inq := rfl
@[simp] theorem faultEntry_outq : (faultEntry f s).outq = s.outq := rfl
@[simp] theorem faultEntry_status : (faultEntry f s).status = .faulted := rfl
@[simp] theorem faultEntry_fault :
    (faultEntry f s).fault = ⟨f.kind, s.pc, s.mem.read s.pc.val, f.detail⟩ := rfl

@[simp] theorem suspend_params : (suspend s).params = s.params := rfl
@[simp] theorem suspend_mem : (suspend s).mem = s.mem := rfl
@[simp] theorem suspend_pc : (suspend s).pc = s.pc := rfl
@[simp] theorem suspend_rb : (suspend s).rb = s.rb := rfl
@[simp] theorem suspend_inq : (suspend s).inq = s.inq := rfl
@[simp] theorem suspend_outq : (suspend s).outq = s.outq := rfl
@[simp] theorem suspend_status : (suspend s).status = .blocked := rfl
@[simp] theorem suspend_fault : (suspend s).fault = s.fault := rfl

@[simp] theorem halt_params : (halt s).params = s.params := rfl
@[simp] theorem halt_mem : (halt s).mem = s.mem := rfl
@[simp] theorem halt_pc : (halt s).pc = s.pc := rfl
@[simp] theorem halt_rb : (halt s).rb = s.rb := rfl
@[simp] theorem halt_inq : (halt s).inq = s.inq := rfl
@[simp] theorem halt_outq : (halt s).outq = s.outq := rfl
@[simp] theorem halt_status : (halt s).status = .halted := rfl
@[simp] theorem halt_fault : (halt s).fault = s.fault := rfl

end

/-! ## Commit -/

section
variable (e : Effects) (pc' : Addr) (s : State)

@[simp] theorem commit_params : (commit e pc' s).params = s.params := rfl
@[simp] theorem commit_mem : (commit e pc' s).mem = writeBack s.mem e.write := rfl
@[simp] theorem commit_pc : (commit e pc' s).pc = pc' := rfl
@[simp] theorem commit_rb : (commit e pc' s).rb = e.rbNext := rfl
@[simp] theorem commit_inq : (commit e pc' s).inq = popInput e.pop s.inq := rfl
@[simp] theorem commit_outq : (commit e pc' s).outq = pushOutput s.outq e.push := rfl
@[simp] theorem commit_status : (commit e pc' s).status = .ready := rfl
@[simp] theorem commit_fault : (commit e pc' s).fault = s.fault := rfl

end

/-! ## The parts of a commit -/

@[simp] theorem writeBack_none (m : Memory) : writeBack m none = m := rfl
@[simp] theorem writeBack_some (m : Memory) (a : Addr) (v : Word) : writeBack m (some (a, v)) = m.write a.val v := rfl
@[simp] theorem popInput_false (q : List Word) : popInput false q = q := rfl
@[simp] theorem popInput_true (q : List Word) : popInput true q = q.tail := rfl
@[simp] theorem pushOutput_none (q : List Word) : pushOutput q none = q := rfl
@[simp] theorem pushOutput_some (q : List Word) (v : Word) : pushOutput q (some v) = q ++ [v] := rfl

section
variable (n : Nat) (s : State)

@[simp] theorem advance_write : (advance n s).write = none := rfl
@[simp] theorem advance_pop : (advance n s).pop = false := rfl
@[simp] theorem advance_push : (advance n s).push = none := rfl
@[simp] theorem advance_pcNext : (advance n s).pcNext = s.pc.val + n := rfl
@[simp] theorem advance_rbNext : (advance n s).rbNext = s.rb := rfl

end

/-! ## The host's commands -/

section
variable (vs : List Word) (n : Nat) (s : State)

@[simp] theorem writePort_params : (writePort vs s).params = s.params := rfl
@[simp] theorem writePort_mem : (writePort vs s).mem = s.mem := rfl
@[simp] theorem writePort_pc : (writePort vs s).pc = s.pc := rfl
@[simp] theorem writePort_rb : (writePort vs s).rb = s.rb := rfl
@[simp] theorem writePort_inq : (writePort vs s).inq = s.inq ++ vs := rfl
@[simp] theorem writePort_outq : (writePort vs s).outq = s.outq := rfl
@[simp] theorem writePort_status : (writePort vs s).status = s.status := rfl
@[simp] theorem writePort_fault : (writePort vs s).fault = s.fault := rfl

@[simp] theorem readAll_params : (readAll s).2.params = s.params := rfl
@[simp] theorem readAll_mem : (readAll s).2.mem = s.mem := rfl
@[simp] theorem readAll_pc : (readAll s).2.pc = s.pc := rfl
@[simp] theorem readAll_rb : (readAll s).2.rb = s.rb := rfl
@[simp] theorem readAll_inq : (readAll s).2.inq = s.inq := rfl
@[simp] theorem readAll_outq : (readAll s).2.outq = [] := rfl
@[simp] theorem readAll_status : (readAll s).2.status = s.status := rfl
@[simp] theorem readAll_fault : (readAll s).2.fault = s.fault := rfl

@[simp] theorem cloneState_params : (cloneState s).params = s.params := rfl
@[simp] theorem cloneState_mem : (cloneState s).mem = s.mem := rfl
@[simp] theorem cloneState_pc : (cloneState s).pc = s.pc := rfl
@[simp] theorem cloneState_rb : (cloneState s).rb = s.rb := rfl
@[simp] theorem cloneState_inq : (cloneState s).inq = s.inq := rfl
@[simp] theorem cloneState_outq : (cloneState s).outq = s.outq := rfl
@[simp] theorem cloneState_status : (cloneState s).status = s.status := rfl

/-- `READ_PORT` changes nothing but `OUTQ` (R113). -/
theorem readPort_state : (readPort s).2 = { s with outq := s.outq.tail } := by
  cases s with
  | mk params mem pc rb inq outq status fault => cases outq <;> rfl

/-- `READ_EXACT` changes nothing but `OUTQ` (R114). -/
theorem readExact_state : ∃ q, (readExact n s).2 = { s with outq := q } := by
  unfold readExact
  split
  · exact ⟨_, rfl⟩
  · exact ⟨s.outq, rfl⟩

end

/-- The reset state is `INIT` of the empty program (R33, R143). -/
theorem reset_eq_init : State.reset = initState Config.resetParams [] := rfl

end Sys2Proof.Machine
end

