-- ==== Sys2Proof/Laws/Ops.lean ====
section
/-! SUPPORT. For each shared operation, one lemma that says everything it can do: provers cite these and unfold nothing. -/

namespace Sys2Proof.Machine

/-! ## Sequencing -/

@[simp] theorem except_ok_bind {ε α β : Type} (a : α) (f : α → Except ε β) : (Except.ok a >>= f) = f a := (rfl)

@[simp] theorem except_error_bind {ε α β : Type} (e : ε) (f : α → Except ε β) : ((Except.error e : Except ε α) >>= f) = .error e :=
  (rfl)

theorem except_bind_eq_ok {ε α β : Type} {x : Except ε α} {f : α → Except ε β} {b : β} :
    (x >>= f) = .ok b ↔ ∃ a, x = .ok a ∧ f a = .ok b := by
  cases x with
  | error e => simp
  | ok a => simp

theorem except_bind_eq_error {ε α β : Type} {x : Except ε α} {f : α → Except ε β} {e : ε} :
    (x >>= f) = .error e ↔ x = .error e ∨ ∃ a, x = .ok a ∧ f a = .error e := by
  cases x with
  | error e' => simp
  | ok a => simp

@[simp] theorem except_map_ok {ε α β : Type} (f : α → β) (a : α) : (Except.ok a : Except ε α).map f = .ok (f a) := rfl

@[simp] theorem except_map_error {ε α β : Type} (f : α → β) (e : ε) : (Except.error e : Except ε α).map f = .error e := rfl

theorem except_map_eq_ok {ε α β : Type} {x : Except ε α} {f : α → β} {b : β} :
    x.map f = .ok b ↔ ∃ a, x = .ok a ∧ f a = b := by
  cases x with
  | error e => simp
  | ok a => simp

theorem except_map_eq_error {ε α β : Type} {x : Except ε α} {f : α → β} {e : ε} :
    x.map f = .error e ↔ x = .error e := by
  cases x with
  | error e' => simp
  | ok a => simp

/-! ## Operand resolution (R54, R55) -/

/-- `ADDR_MAX` as an integer, for `omega`. -/
theorem addrMax_cast : ((Config.addrMax : Nat) : Int) = 18446744073709551615 := rfl

theorem toAddr_eq_ok {z : Int} {a : Addr} : toAddr z = .ok a ↔ (a.val : Int) = z := by
  rw [← Addr.ofInt?_eq_some]
  unfold toAddr
  split <;> simp_all

theorem toAddr_eq_error {z : Int} {f : Fatal} :
    toAddr z = .error f ↔ (z < 0 ∨ (Config.addrMax : Int) < z) ∧ f = .invalidAddress z := by
  rw [← Addr.ofInt?_eq_none]
  unfold toAddr
  split
  · next h => simp [h]
  · next h => simp [h, eq_comm]

theorem checkWriteTarget_eq_ok {i : Nat} {p : Param} {u : Unit} :
    checkWriteTarget i p = .ok u ↔ p.mode ≠ .immediate := by
  unfold checkWriteTarget
  cases p.mode <;> simp

theorem checkWriteTarget_eq_error {i : Nat} {p : Param} {f : Fatal} :
    checkWriteTarget i p = .error f ↔ p.mode = .immediate ∧ f = .invalidWriteTarget i := by
  unfold checkWriteTarget
  cases p.mode <;> simp [eq_comm]

/-- A write address is resolved only for a parameter that passes the write-target check (R55). -/
theorem writeAddr_mode {s : State} {i : Nat} {p : Param} {a : Addr} (h : writeAddr s i p = .ok a) : p.mode ≠ .immediate := by
  intro e
  simp [writeAddr, e] at h

/-- `ReadOperand` raises exactly what `ReadAddr` raises (R46, R54). -/
theorem readOperand_eq_error {s : State} {p : Param} {f : Fatal} :
    readOperand s p = .error f ↔ readAddr s p = .error f := except_map_eq_error

theorem readOperand_eq_ok {s : State} {p : Param} {v : Word} :
    readOperand s p = .ok v ↔ ∃ a, readAddr s p = .ok a ∧ operandValue s p a = v := except_map_eq_ok

/-- Operand resolution of a read raises only `InvalidAddress` (R54). -/
theorem readAddr_error {s : State} {p : Param} {f : Fatal} (h : readAddr s p = .error f) : ∃ z, f = .invalidAddress z := by
  unfold readAddr at h
  split at h
  · exact ⟨_, (toAddr_eq_error.mp (except_map_eq_error.mp h)).2⟩
  · cases h
  · exact ⟨_, (toAddr_eq_error.mp (except_map_eq_error.mp h)).2⟩

/-- Format F3 resolves exactly when its two reads and its write do (R107 steps 4 to 6). -/
theorem operandsF3_eq_ok {s : State} {a b d : Param} {x y : Word} {dst : Addr} :
    operandsF3 s a b d = .ok (x, y, dst) ↔ readOperand s a = .ok x ∧ readOperand s b = .ok y ∧ writeAddr s 3 d = .ok dst := by
  simp only [operandsF3, except_bind_eq_ok, checkWriteTarget_eq_ok, readOperand_eq_ok]
  constructor
  · rintro ⟨-, -, a₁, h₁, a₂, h₂, dst', h₃, e⟩
    cases e
    exact ⟨⟨a₁, h₁, rfl⟩, ⟨a₂, h₂, rfl⟩, h₃⟩
  · rintro ⟨⟨a₁, h₁, rfl⟩, ⟨a₂, h₂, rfl⟩, h₃⟩
    exact ⟨(), writeAddr_mode h₃, a₁, h₁, a₂, h₂, dst, h₃, rfl⟩

/-- What format F3 raises: the write-target mode first, then the parameters' addresses in order (R133). -/
theorem operandsF3_eq_error {s : State} {a b d : Param} {f : Fatal} :
    operandsF3 s a b d = .error f ↔
      (d.mode = .immediate ∧ f = .invalidWriteTarget 3) ∨
      d.mode ≠ .immediate ∧ (readAddr s a = .error f ∨
        (∃ a₁, readAddr s a = .ok a₁) ∧ (readAddr s b = .error f ∨
          (∃ a₂, readAddr s b = .ok a₂) ∧ writeAddr s 3 d = .error f)) := by
  simp only [operandsF3, except_bind_eq_error, checkWriteTarget_eq_ok, checkWriteTarget_eq_error]
  simp

theorem operandsF2_eq_ok {s : State} {a b : Param} {x y : Word} :
    operandsF2 s a b = .ok (x, y) ↔ readOperand s a = .ok x ∧ readOperand s b = .ok y := by
  simp only [operandsF2, except_bind_eq_ok, readOperand_eq_ok]
  constructor
  · rintro ⟨a₁, h₁, a₂, h₂, e⟩
    cases e
    exact ⟨⟨a₁, h₁, rfl⟩, ⟨a₂, h₂, rfl⟩⟩
  · rintro ⟨⟨a₁, h₁, rfl⟩, ⟨a₂, h₂, rfl⟩⟩
    exact ⟨a₁, h₁, a₂, h₂, rfl⟩

theorem operandsF2_eq_error {s : State} {a b : Param} {f : Fatal} :
    operandsF2 s a b = .error f ↔
      readAddr s a = .error f ∨ (∃ a₁, readAddr s a = .ok a₁) ∧ readAddr s b = .error f := by
  simp only [operandsF2, except_bind_eq_error]
  simp

theorem operandF1W_eq_ok {s : State} {d : Param} {dst : Addr} :
    operandF1W s d = .ok dst ↔ writeAddr s 1 d = .ok dst := by
  simp only [operandF1W, except_bind_eq_ok, checkWriteTarget_eq_ok]
  exact ⟨fun ⟨_, _, h⟩ => h, fun h => ⟨(), writeAddr_mode h, h⟩⟩

theorem operandF1W_eq_error {s : State} {d : Param} {f : Fatal} :
    operandF1W s d = .error f ↔
      (d.mode = .immediate ∧ f = .invalidWriteTarget 1) ∨ d.mode ≠ .immediate ∧ writeAddr s 1 d = .error f := by
  simp only [operandF1W, except_bind_eq_error, checkWriteTarget_eq_ok, checkWriteTarget_eq_error]
  simp

/-! ## The ALU's verdicts (R36) -/

theorem toWord_eq_ok {z : Int} {w : Word} : toWord z = .ok w ↔ w.val = z := by
  rw [← Word.ofInt?_eq_some]
  unfold toWord
  split <;> simp_all

theorem toWord_eq_error {z : Int} {f : Fatal} :
    toWord z = .error f ↔ (z < Config.wordMin ∨ Config.wordMax < z) ∧ f = .arithmeticOverflow z := by
  rw [← Word.ofInt?_eq_none]
  unfold toWord
  split
  · next h => simp [h]
  · next h => simp [h, eq_comm]

theorem aluAadd_eq_ok {rb r : Addr} {a : Word} : aluAadd rb a = .ok r ↔ (r.val : Int) = rb.val + a.val := by
  rw [← Addr.ofInt?_eq_some]
  unfold aluAadd
  split <;> simp_all

theorem aluAadd_eq_error {rb : Addr} {a : Word} {f : Fatal} :
    aluAadd rb a = .error f ↔
      ((rb.val : Int) + a.val < 0 ∨ (Config.addrMax : Int) < rb.val + a.val) ∧ f = .invalidAddress (rb.val + a.val) := by
  rw [← Addr.ofInt?_eq_none]
  unfold aluAadd
  split
  · next h => simp [h]
  · next h => simp [h, eq_comm]

/-! ## The end of an instruction (R107 steps 8 and 9) -/

/-- The write of an instruction, if it has one, is below the capacity. -/
def WriteFits (s : State) (w : Option (Addr × Word)) : Prop := ∀ a v, w = some (a, v) → a.val < s.params.memCapacity

@[simp] theorem writeFits_none (s : State) : WriteFits s none := by
  intro a v h
  exact absurd h (by simp)

@[simp] theorem writeFits_some {s : State} {a : Addr} {v : Word} :
    WriteFits s (some (a, v)) ↔ a.val < s.params.memCapacity := by
  simp [WriteFits]

theorem checkCapacity_eq_ok {s : State} {w : Option (Addr × Word)} {u : Unit} :
    checkCapacity s w = .ok u ↔ WriteFits s w := by
  cases w with
  | none => simp [checkCapacity, WriteFits]
  | some w =>
    obtain ⟨a, v⟩ := w
    simp only [checkCapacity, WriteFits]
    split
    · next h => simpa using h
    · next h => simpa using h

theorem checkCapacity_eq_error {s : State} {w : Option (Addr × Word)} {f : Fatal} :
    checkCapacity s w = .error f ↔ ∃ a v, w = some (a, v) ∧ s.params.memCapacity ≤ a.val ∧ f = .capacityExceeded a := by
  cases w with
  | none => simp [checkCapacity]
  | some w =>
    obtain ⟨a, v⟩ := w
    unfold checkCapacity
    simp only
    split
    · next h => simp; omega
    · next h => simp [eq_comm]; omega

/-- When an instruction commits: the new `pc` is an address and the write fits. -/
theorem complete_eq_ok {e : Effects} {s t : State} :
    complete e s = .ok t ↔ ∃ pc' : Addr, pc'.val = e.pcNext ∧ WriteFits s e.write ∧ t = commit e pc' s := by
  unfold complete
  split
  · next h =>
    simp only [reduceCtorEq, false_iff]
    rintro ⟨pc', h', -⟩
    have := pc'.isLt
    have := Addr.ofInt?_eq_none.mp h
    omega
  · next pc' h =>
    have h' : pc'.val = e.pcNext := by exact_mod_cast Addr.ofInt?_eq_some.mp h
    simp only [except_bind_eq_ok, checkCapacity_eq_ok]
    constructor
    · rintro ⟨-, hw, ht⟩
      cases ht
      exact ⟨pc', h', hw, rfl⟩
    · rintro ⟨pc'', h'', hw, rfl⟩
      obtain rfl : pc'' = pc' := Fin.ext (h''.trans h'.symm)
      exact ⟨(), hw, rfl⟩

/-- An instruction whose new `pc` is an address and whose write fits commits. -/
theorem complete_of_fits {e : Effects} {s : State} {pc' : Addr} (h : pc'.val = e.pcNext) (hw : WriteFits s e.write) :
    complete e s = .ok (commit e pc' s) :=
  complete_eq_ok.mpr ⟨pc', h, hw, rfl⟩

/-- When it does not: the new `pc` first, then the capacity (R133 items 7 and 8). -/
theorem complete_eq_error {e : Effects} {s : State} {f : Fatal} :
    complete e s = .error f ↔
      (Config.addrMax < e.pcNext ∧ f = .invalidAddress e.pcNext) ∨
      (e.pcNext ≤ Config.addrMax ∧
        ∃ a v, e.write = some (a, v) ∧ s.params.memCapacity ≤ a.val ∧ f = .capacityExceeded a) := by
  unfold complete
  split
  · next h =>
    have h' := Addr.ofInt?_eq_none.mp h
    have : Config.addrMax < e.pcNext := by omega
    simp [show ¬ e.pcNext ≤ Config.addrMax by omega, this, eq_comm]
  · next pc' h =>
    have h' := Addr.ofInt?_eq_some.mp h
    have := pc'.isLt
    have hle : e.pcNext ≤ Config.addrMax := by omega
    simp only [except_bind_eq_error, checkCapacity_eq_error]
    simp [show ¬ Config.addrMax < e.pcNext by omega, hle]

/-- Every instruction answers a next state: the one it reached, or fault entry. -/
theorem conclude_eq_next {s t : State} {x : Except Fatal State} :
    conclude s x = .next t ↔ x = .ok t ∨ ∃ f, x = .error f ∧ t = faultEntry f s := by
  cases x with
  | error f => simp [conclude, eq_comm]
  | ok u => simp [conclude]

/-- A fault entry tells which condition was raised: the record holds its kind and its detail (R134). -/
theorem faultEntry_inj {s : State} {f g : Fatal} (h : faultEntry f s = faultEntry g s) : f = g := by
  have hk : f.kind = g.kind := congrArg (fun t => t.fault.kind) h
  have hd : f.detail = g.detail := congrArg (fun t => t.fault.detail) h
  cases f <;> cases g <;> simp only [Fatal.kind, reduceCtorEq] at hk <;> simp only [Fatal.detail] at hd
  · rw [Word.ext hd]
  · rw [Int.ofNat_inj.mp hd]
  · rw [hd]
  · rw [hd]
  · rw [Fin.ext (Int.ofNat_inj.mp hd)]

/-- When a conclusion is the entry of `f`, `f` was raised, unless the instruction itself computed that state. -/
theorem raised_of_conclude {s t : State} {x : Except Fatal State} (h : conclude s x = .next t) (hx : x ≠ .ok t) :
    ∃ f, x = .error f ∧ t = faultEntry f s :=
  (conclude_eq_next.mp h).resolve_left hx

@[simp] theorem conclude_ok (s t : State) : conclude s (.ok t) = .next t := rfl

@[simp] theorem conclude_error (s : State) (f : Fatal) : conclude s (.error f) = .next (faultEntry f s) := rfl

end Sys2Proof.Machine
end

