-- ==== Sys2Proof/Laws/Step.lean ====
section
/-! SUPPORT. What a step can do, said once: every invariant and every whole-machine rule follows from `exec_cases` and
`step_cases` without unfolding a meaning. -/

namespace Sys2Proof.Machine

/-- The effects an instruction hands to the commit (the pseudocode of R91 to R104). -/
def Executes (i : Instr) (s : State) (e : Effects) : Prop :=
  match i with
  | .add a b d => ∃ x y dst r, operandsF3 s a b d = .ok (x, y, dst) ∧ toWord (aluAdd x y) = .ok r ∧
      e = { advance 4 s with write := some (dst, r) }
  | .mul a b d => ∃ x y dst r, operandsF3 s a b d = .ok (x, y, dst) ∧ toWord (aluMul x y) = .ok r ∧
      e = { advance 4 s with write := some (dst, r) }
  | .lt a b d => ∃ x y dst, operandsF3 s a b d = .ok (x, y, dst) ∧ e = { advance 4 s with write := some (dst, aluLt x y) }
  | .eq a b d => ∃ x y dst, operandsF3 s a b d = .ok (x, y, dst) ∧ e = { advance 4 s with write := some (dst, aluEq x y) }
  | .inp d => ∃ dst v q, operandF1W s d = .ok dst ∧ s.inq = v :: q ∧
      e = { advance 2 s with write := some (dst, v), pop := true }
  | .out a => ∃ x, operandF1R s a = .ok x ∧ e = { advance 2 s with push := some x }
  | .jnz a t => ∃ x y n, operandsF2 s a t = .ok (x, y) ∧ jumpTarget y = .ok n ∧
      e = if !aluZero x then { advance 3 s with pcNext := n } else advance 3 s
  | .jz a t => ∃ x y n, operandsF2 s a t = .ok (x, y) ∧ jumpTarget y = .ok n ∧
      e = if aluZero x then { advance 3 s with pcNext := n } else advance 3 s
  | .arb a => ∃ x r, operandF1R s a = .ok x ∧ aluAadd s.rb x = .ok r ∧ e = { advance 2 s with rbNext := r }
  | .hlt => False

/-- A completed instruction: its effects, committed (R107 steps 8 and 9). -/
def Completes (i : Instr) (s t : State) : Prop :=
  ∃ e, Executes i s e ∧ complete e s = .ok t

theorem jumpTarget_eq_ok {t : Word} {n : Nat} : jumpTarget t = .ok n ↔ (n : Int) = t.val := by
  unfold jumpTarget
  split
  · next m h => simp [h, eq_comm]
  · next m h => simp [h]

theorem jumpTarget_eq_error {t : Word} {f : Fatal} : jumpTarget t = .error f ↔ t.val < 0 ∧ f = .invalidAddress t.val := by
  unfold jumpTarget
  split
  · next m h => simp [h]
  · next m h => simp [h, eq_comm]

/-! ## The arms of `exec`, over the shared operations -/

theorem exec_add (a b d : Param) (s : State) : exec (.add a b d) s = execF3 (fun x y => toWord (aluAdd x y)) a b d s := rfl
theorem exec_mul (a b d : Param) (s : State) : exec (.mul a b d) s = execF3 (fun x y => toWord (aluMul x y)) a b d s := rfl
theorem exec_lt (a b d : Param) (s : State) : exec (.lt a b d) s = execF3 (fun x y => .ok (aluLt x y)) a b d s := rfl
theorem exec_eq (a b d : Param) (s : State) : exec (.eq a b d) s = execF3 (fun x y => .ok (aluEq x y)) a b d s := rfl
theorem exec_inp (d : Param) (s : State) : exec (.inp d) s = execIn d s := rfl
theorem exec_out (a : Param) (s : State) : exec (.out a) s = execOut a s := rfl
theorem exec_jnz (a t : Param) (s : State) : exec (.jnz a t) s = execJump (fun x => !aluZero x) a t s := rfl
theorem exec_jz (a t : Param) (s : State) : exec (.jz a t) s = execJump (fun x => aluZero x) a t s := rfl
theorem exec_arb (a : Param) (s : State) : exec (.arb a) s = execArb a s := rfl
theorem exec_hlt (s : State) : exec .hlt s = .next (halt s) := rfl

/-- What an F3 instruction answers: fault entry, or its committed effects. -/
theorem execF3_cases {g : Word → Word → Except Fatal Word} {a b d : Param} {s t : State}
    (h : execF3 g a b d s = .next t) :
    (∃ f, t = faultEntry f s) ∨ ∃ x y dst r, operandsF3 s a b d = .ok (x, y, dst) ∧ g x y = .ok r ∧
      complete { advance 4 s with write := some (dst, r) } s = .ok t := by
  obtain h | ⟨f, -, h⟩ := conclude_eq_next.mp h
  · obtain ⟨⟨x, y, dst⟩, h₁, h₂⟩ := except_bind_eq_ok.mp h
    obtain ⟨r, h₃, h₄⟩ := except_bind_eq_ok.mp h₂
    exact .inr ⟨x, y, dst, r, h₁, h₃, h₄⟩
  · exact .inl ⟨f, h⟩

/-- What a conditional jump answers. -/
theorem execJump_cases {taken : Word → Bool} {a p : Param} {s t : State} (h : execJump taken a p s = .next t) :
    (∃ f, t = faultEntry f s) ∨ ∃ x y n, operandsF2 s a p = .ok (x, y) ∧ jumpTarget y = .ok n ∧
      complete (if taken x then { advance 3 s with pcNext := n } else advance 3 s) s = .ok t := by
  obtain h | ⟨f, -, h⟩ := conclude_eq_next.mp h
  · obtain ⟨⟨x, y⟩, h₁, h₂⟩ := except_bind_eq_ok.mp h
    obtain ⟨n, h₃, h₄⟩ := except_bind_eq_ok.mp h₂
    exact .inr ⟨x, y, n, h₁, h₃, h₄⟩
  · exact .inl ⟨f, h⟩

/-- Everything `exec` can answer as a next state: fault entry (R134), suspension of an `IN` at an empty queue (R98), the halt
(R103), or the committed effects of the instruction (R107). -/
theorem exec_cases {i : Instr} {s t : State} (h : exec i s = .next t) :
    (∃ f, t = faultEntry f s) ∨ (∃ d, i = .inp d ∧ s.inq = [] ∧ t = suspend s) ∨ (i = .hlt ∧ t = halt s) ∨
      Completes i s t := by
  cases i with
  | add a b d =>
    rw [exec_add] at h
    obtain h | ⟨x, y, dst, r, h₁, h₂, h₃⟩ := execF3_cases h
    · exact .inl h
    · exact .inr (.inr (.inr ⟨_, ⟨x, y, dst, r, h₁, h₂, rfl⟩, h₃⟩))
  | mul a b d =>
    rw [exec_mul] at h
    obtain h | ⟨x, y, dst, r, h₁, h₂, h₃⟩ := execF3_cases h
    · exact .inl h
    · exact .inr (.inr (.inr ⟨_, ⟨x, y, dst, r, h₁, h₂, rfl⟩, h₃⟩))
  | lt a b d =>
    rw [exec_lt] at h
    obtain h | ⟨x, y, dst, r, h₁, h₂, h₃⟩ := execF3_cases h
    · exact .inl h
    · cases h₂
      exact .inr (.inr (.inr ⟨_, ⟨x, y, dst, h₁, rfl⟩, h₃⟩))
  | eq a b d =>
    rw [exec_eq] at h
    obtain h | ⟨x, y, dst, r, h₁, h₂, h₃⟩ := execF3_cases h
    · exact .inl h
    · cases h₂
      exact .inr (.inr (.inr ⟨_, ⟨x, y, dst, h₁, rfl⟩, h₃⟩))
  | inp d =>
    rw [exec_inp, execIn] at h
    obtain h | ⟨f, -, h⟩ := conclude_eq_next.mp h
    · obtain ⟨dst, h₁, h₂⟩ := except_bind_eq_ok.mp h
      cases hq : s.inq with
      | nil =>
        rw [hq] at h₂
        cases h₂
        exact .inr (.inl ⟨d, rfl, rfl, rfl⟩)
      | cons v q =>
        rw [hq] at h₂
        exact .inr (.inr (.inr ⟨_, ⟨dst, v, q, h₁, hq, rfl⟩, h₂⟩))
    · exact .inl ⟨f, h⟩
  | out a =>
    rw [exec_out, execOut] at h
    obtain h | ⟨f, -, h⟩ := conclude_eq_next.mp h
    · obtain ⟨x, h₁, h₂⟩ := except_bind_eq_ok.mp h
      exact .inr (.inr (.inr ⟨_, ⟨x, h₁, rfl⟩, h₂⟩))
    · exact .inl ⟨f, h⟩
  | jnz a p =>
    rw [exec_jnz] at h
    obtain h | ⟨x, y, n, h₁, h₂, h₃⟩ := execJump_cases h
    · exact .inl h
    · exact .inr (.inr (.inr ⟨_, ⟨x, y, n, h₁, h₂, rfl⟩, h₃⟩))
  | jz a p =>
    rw [exec_jz] at h
    obtain h | ⟨x, y, n, h₁, h₂, h₃⟩ := execJump_cases h
    · exact .inl h
    · exact .inr (.inr (.inr ⟨_, ⟨x, y, n, h₁, h₂, rfl⟩, h₃⟩))
  | arb a =>
    rw [exec_arb, execArb] at h
    obtain h | ⟨f, -, h⟩ := conclude_eq_next.mp h
    · obtain ⟨x, h₁, h₂⟩ := except_bind_eq_ok.mp h
      obtain ⟨r, h₃, h₄⟩ := except_bind_eq_ok.mp h₂
      exact .inr (.inr (.inr ⟨_, ⟨x, r, h₁, h₃, rfl⟩, h₄⟩))
    · exact .inl ⟨f, h⟩
  | hlt =>
    simp only [exec_hlt, Host.Outcome.next.injEq] at h
    subst h
    exact .inr (.inr (.inl ⟨rfl, rfl⟩))

/-- Whenever an instruction ends ready, it completed (R107 step 9). -/
theorem exec_completes {i : Instr} {s t : State} (h : exec i s = .next t) (ht : t.status = .ready) : Completes i s t := by
  obtain ⟨f, rfl⟩ | ⟨d, -, -, rfl⟩ | ⟨-, rfl⟩ | h := exec_cases h
  · cases ht
  · cases ht
  · cases ht
  · exact h

/-- Whenever an instruction ends blocked, it is an `IN` whose target resolved and that found `INQ` empty (R98). -/
theorem exec_blocks {i : Instr} {s t : State} (h : exec i s = .next t) (ht : t.status = .blocked) :
    ∃ d dst, i = .inp d ∧ writeAddr s 1 d = .ok dst ∧ s.inq = [] ∧ t = suspend s := by
  obtain ⟨f, rfl⟩ | ⟨d, rfl, hq, rfl⟩ | ⟨-, rfl⟩ | ⟨e, -, hc⟩ := exec_cases h
  · cases ht
  · rw [exec_inp, execIn] at h
    cases ho : operandF1W s d with
    | ok dst => exact ⟨d, dst, rfl, operandF1W_eq_ok.mp ho, hq, rfl⟩
    | error f =>
      rw [ho, except_error_bind, conclude_error, Host.Outcome.next.injEq] at h
      cases congrArg State.status h
  · cases ht
  · obtain ⟨pc', -, -, rfl⟩ := complete_eq_ok.mp hc
    cases ht

/-! ## What `exec` raises -/

/-- The conditions an instruction raises, in the order of its checks (R133): an operand, then its own condition, then the new
`pc` and the capacity of its write. -/
def Raises (i : Instr) (s : State) (f : Fatal) : Prop :=
  match i with
  | .add a b d => operandsF3 s a b d = .error f ∨ ∃ x y dst, operandsF3 s a b d = .ok (x, y, dst) ∧
      (toWord (aluAdd x y) = .error f ∨ ∃ r, complete { advance 4 s with write := some (dst, r) } s = .error f)
  | .mul a b d => operandsF3 s a b d = .error f ∨ ∃ x y dst, operandsF3 s a b d = .ok (x, y, dst) ∧
      (toWord (aluMul x y) = .error f ∨ ∃ r, complete { advance 4 s with write := some (dst, r) } s = .error f)
  | .lt a b d => operandsF3 s a b d = .error f ∨ ∃ x y dst, operandsF3 s a b d = .ok (x, y, dst) ∧
      ∃ r, complete { advance 4 s with write := some (dst, r) } s = .error f
  | .eq a b d => operandsF3 s a b d = .error f ∨ ∃ x y dst, operandsF3 s a b d = .ok (x, y, dst) ∧
      ∃ r, complete { advance 4 s with write := some (dst, r) } s = .error f
  | .inp d => operandF1W s d = .error f ∨ ∃ dst v q, operandF1W s d = .ok dst ∧ s.inq = v :: q ∧
      complete { advance 2 s with write := some (dst, v), pop := true } s = .error f
  | .out a => operandF1R s a = .error f ∨ ∃ x, operandF1R s a = .ok x ∧
      complete { advance 2 s with push := some x } s = .error f
  | .jnz a t => operandsF2 s a t = .error f ∨ ∃ x y, operandsF2 s a t = .ok (x, y) ∧
      (jumpTarget y = .error f ∨ ∃ n, jumpTarget y = .ok n ∧
        complete (if !aluZero x then { advance 3 s with pcNext := n } else advance 3 s) s = .error f)
  | .jz a t => operandsF2 s a t = .error f ∨ ∃ x y, operandsF2 s a t = .ok (x, y) ∧
      (jumpTarget y = .error f ∨ ∃ n, jumpTarget y = .ok n ∧
        complete (if aluZero x then { advance 3 s with pcNext := n } else advance 3 s) s = .error f)
  | .arb a => operandF1R s a = .error f ∨ ∃ x, operandF1R s a = .ok x ∧
      (aluAadd s.rb x = .error f ∨ ∃ r, complete { advance 2 s with rbNext := r } s = .error f)
  | .hlt => False

/-- A committed instruction is not faulted (R107 step 9). -/
theorem complete_status {e : Effects} {s t : State} (h : complete e s = .ok t) : t.status = .ready := by
  obtain ⟨pc', -, -, rfl⟩ := complete_eq_ok.mp h
  rfl

/-- What an F3 instruction raises. -/
theorem execF3_raises {g : Word → Word → Except Fatal Word} {a b d : Param} {s t : State}
    (h : execF3 g a b d s = .next t) (ht : t.status = .faulted) :
    ∃ f, t = faultEntry f s ∧ (operandsF3 s a b d = .error f ∨ ∃ x y dst, operandsF3 s a b d = .ok (x, y, dst) ∧
      (g x y = .error f ∨ ∃ r, complete { advance 4 s with write := some (dst, r) } s = .error f)) := by
  obtain ⟨f, hf, rfl⟩ := raised_of_conclude h fun e => by
    obtain ⟨⟨x, y, dst⟩, -, h₂⟩ := except_bind_eq_ok.mp e
    obtain ⟨r, -, h₄⟩ := except_bind_eq_ok.mp h₂
    rw [complete_status h₄] at ht
    cases ht
  refine ⟨f, rfl, ?_⟩
  obtain h₁ | ⟨⟨x, y, dst⟩, h₁, h₂⟩ := except_bind_eq_error.mp hf
  · exact .inl h₁
  · obtain h₃ | ⟨r, -, h₄⟩ := except_bind_eq_error.mp h₂
    · exact .inr ⟨x, y, dst, h₁, .inl h₃⟩
    · exact .inr ⟨x, y, dst, h₁, .inr ⟨r, h₄⟩⟩

/-- What a conditional jump raises. -/
theorem execJump_raises {taken : Word → Bool} {a p : Param} {s t : State}
    (h : execJump taken a p s = .next t) (ht : t.status = .faulted) :
    ∃ f, t = faultEntry f s ∧ (operandsF2 s a p = .error f ∨ ∃ x y, operandsF2 s a p = .ok (x, y) ∧
      (jumpTarget y = .error f ∨ ∃ n, jumpTarget y = .ok n ∧
        complete (if taken x then { advance 3 s with pcNext := n } else advance 3 s) s = .error f)) := by
  obtain ⟨f, hf, rfl⟩ := raised_of_conclude h fun e => by
    obtain ⟨⟨x, y⟩, -, h₂⟩ := except_bind_eq_ok.mp e
    obtain ⟨n, -, h₄⟩ := except_bind_eq_ok.mp h₂
    rw [complete_status h₄] at ht
    cases ht
  refine ⟨f, rfl, ?_⟩
  obtain h₁ | ⟨⟨x, y⟩, h₁, h₂⟩ := except_bind_eq_error.mp hf
  · exact .inl h₁
  · obtain h₃ | ⟨n, h₃, h₄⟩ := except_bind_eq_error.mp h₂
    · exact .inr ⟨x, y, h₁, .inl h₃⟩
    · exact .inr ⟨x, y, h₁, .inr ⟨n, h₃, h₄⟩⟩

/-- Whenever an instruction ends faulted, it is by the entry of a condition it raises (R134). -/
theorem exec_raises {i : Instr} {s t : State} (h : exec i s = .next t) (ht : t.status = .faulted) :
    ∃ f, t = faultEntry f s ∧ Raises i s f := by
  cases i with
  | add a b d => exact execF3_raises (exec_add a b d s ▸ h) ht
  | mul a b d => exact execF3_raises (exec_mul a b d s ▸ h) ht
  | lt a b d =>
    obtain ⟨f, rfl, h₁ | ⟨x, y, dst, h₁, h₂ | h₃⟩⟩ := execF3_raises (exec_lt a b d s ▸ h) ht
    · exact ⟨f, rfl, .inl h₁⟩
    · cases h₂
    · exact ⟨f, rfl, .inr ⟨x, y, dst, h₁, h₃⟩⟩
  | eq a b d =>
    obtain ⟨f, rfl, h₁ | ⟨x, y, dst, h₁, h₂ | h₃⟩⟩ := execF3_raises (exec_eq a b d s ▸ h) ht
    · exact ⟨f, rfl, .inl h₁⟩
    · cases h₂
    · exact ⟨f, rfl, .inr ⟨x, y, dst, h₁, h₃⟩⟩
  | jnz a p => exact execJump_raises (exec_jnz a p s ▸ h) ht
  | jz a p => exact execJump_raises (exec_jz a p s ▸ h) ht
  | inp d =>
    rw [exec_inp, execIn] at h
    obtain ⟨f, hf, rfl⟩ := raised_of_conclude h fun e => by
      obtain ⟨dst, -, h₂⟩ := except_bind_eq_ok.mp e
      cases hq : s.inq with
      | nil =>
        rw [hq] at h₂
        cases h₂
        cases ht
      | cons v q =>
        rw [hq] at h₂
        rw [complete_status h₂] at ht
        cases ht
    refine ⟨f, rfl, ?_⟩
    obtain h₁ | ⟨dst, h₁, h₂⟩ := except_bind_eq_error.mp hf
    · exact .inl h₁
    · cases hq : s.inq with
      | nil =>
        rw [hq] at h₂
        cases h₂
      | cons v q =>
        rw [hq] at h₂
        exact .inr ⟨dst, v, q, h₁, hq, h₂⟩
  | out a =>
    rw [exec_out, execOut] at h
    obtain ⟨f, hf, rfl⟩ := raised_of_conclude h fun e => by
      obtain ⟨x, -, h₂⟩ := except_bind_eq_ok.mp e
      rw [complete_status h₂] at ht
      cases ht
    exact ⟨f, rfl, except_bind_eq_error.mp hf⟩
  | arb a =>
    rw [exec_arb, execArb] at h
    obtain ⟨f, hf, rfl⟩ := raised_of_conclude h fun e => by
      obtain ⟨x, -, h₂⟩ := except_bind_eq_ok.mp e
      obtain ⟨r, -, h₄⟩ := except_bind_eq_ok.mp h₂
      rw [complete_status h₄] at ht
      cases ht
    refine ⟨f, rfl, ?_⟩
    obtain h₁ | ⟨x, h₁, h₂⟩ := except_bind_eq_error.mp hf
    · exact .inl h₁
    · obtain h₃ | ⟨r, -, h₄⟩ := except_bind_eq_error.mp h₂
      · exact .inr ⟨x, h₁, .inl h₃⟩
      · exact .inr ⟨x, h₁, .inr ⟨r, h₄⟩⟩
  | hlt =>
    simp only [exec_hlt, Host.Outcome.next.injEq] at h
    subst h
    cases ht

/-! ## Steps -/

/-- Fetching is decoding the four Words from `pc` on, the longest instruction's (R70, R76). -/
theorem fetch_eq_decode (s : State) :
    fetch s = decode [s.mem.read s.pc.val, s.mem.read (s.pc.val + 1), s.mem.read (s.pc.val + 2), s.mem.read (s.pc.val + 3)] := by
  unfold fetch decode
  cases e : decodeHead (s.mem.read s.pc.val) with
  | ok h => rw [decodeFrom_of_head (h := h) (by exact e), decodeFrom_of_head (h := h) (by exact e)]; rfl
  | error x => rw [decodeFrom_of_error (by exact e), decodeFrom_of_error (by exact e)]

/-- Fetching depends on memory and `pc` alone (R107 step 2). -/
theorem fetch_congr {s t : State} (hm : t.mem = s.mem) (hp : t.pc = s.pc) : fetch t = fetch s := by
  unfold fetch
  rw [hm, hp]

/-- A step of an instance that has not faulted. -/
theorem step_of_ne_faulted {s : State} (h : s.status ≠ .faulted) :
    step s = match fetch s with
      | .ok i => exec i s
      | .error _ => .next (faultEntry (.invalidOpcode (s.mem.read s.pc.val)) s) := by
  unfold step
  split
  · contradiction
  all_goals rfl

/-- A step of a faulted instance (R135). -/
theorem step_of_faulted {s : State} (h : s.status = .faulted) : step s = .refused .instanceFaulted := by
  unfold step
  rw [h]

/-- Everything `step` can answer as a next state. -/
theorem step_cases {s t : State} (h : step s = .next t) :
    s.status ≠ .faulted ∧
      ((∃ e, fetch s = .error e ∧ t = faultEntry (.invalidOpcode (s.mem.read s.pc.val)) s) ∨
        ∃ i, fetch s = .ok i ∧ exec i s = .next t) := by
  by_cases hs : s.status = .faulted
  · rw [step_of_faulted hs] at h
    cases h
  · refine ⟨hs, ?_⟩
    rw [step_of_ne_faulted hs] at h
    split at h
    · next i hi => exact .inr ⟨i, hi, h⟩
    · next e he =>
      cases h
      exact .inl ⟨e, he, rfl⟩

/-! ## What the committed effects of an instruction may touch -/

/-- The instructions with a write parameter (R74, R77). -/
def Instr.WritesMemory : Instr → Prop
  | .add _ _ _ | .mul _ _ _ | .inp _ | .lt _ _ _ | .eq _ _ _ => True
  | .out _ | .jnz _ _ | .jz _ _ | .arb _ | .hlt => False

theorem Executes.write_of_ne {i : Instr} {s : State} {e : Effects} (h : Executes i s e) (hw : e.write ≠ none) :
    Instr.WritesMemory i := by
  cases i with
  | out a =>
    obtain ⟨x, -, rfl⟩ := h
    exact absurd rfl hw
  | jnz a p =>
    obtain ⟨x, y, n, -, -, rfl⟩ := h
    split at hw <;> exact absurd rfl hw
  | jz a p =>
    obtain ⟨x, y, n, -, -, rfl⟩ := h
    split at hw <;> exact absurd rfl hw
  | arb a =>
    obtain ⟨x, r, -, -, rfl⟩ := h
    exact absurd rfl hw
  | hlt => exact h
  | add | mul | inp | lt | eq => trivial

theorem Executes.rbNext_of_ne {i : Instr} {s : State} {e : Effects} (h : Executes i s e) (hr : e.rbNext ≠ s.rb) :
    ∃ a, i = .arb a := by
  cases i with
  | arb a => exact ⟨a, rfl⟩
  | hlt => exact h.elim
  | add | mul =>
    obtain ⟨x, y, dst, r, -, -, rfl⟩ := h
    exact absurd rfl hr
  | lt | eq =>
    obtain ⟨x, y, dst, -, rfl⟩ := h
    exact absurd rfl hr
  | inp =>
    obtain ⟨dst, v, q, -, -, rfl⟩ := h
    exact absurd rfl hr
  | out =>
    obtain ⟨x, -, rfl⟩ := h
    exact absurd rfl hr
  | jnz | jz =>
    obtain ⟨x, y, n, -, -, rfl⟩ := h
    split at hr <;> exact absurd rfl hr

theorem Executes.pop_eq_true {i : Instr} {s : State} {e : Effects} (h : Executes i s e) (hp : e.pop = true) :
    ∃ d, i = .inp d := by
  cases i with
  | inp d => exact ⟨d, rfl⟩
  | hlt => exact h.elim
  | add | mul =>
    obtain ⟨x, y, dst, r, -, -, rfl⟩ := h
    cases hp
  | lt | eq =>
    obtain ⟨x, y, dst, -, rfl⟩ := h
    cases hp
  | arb =>
    obtain ⟨x, r, -, -, rfl⟩ := h
    cases hp
  | out =>
    obtain ⟨x, -, rfl⟩ := h
    cases hp
  | jnz | jz =>
    obtain ⟨x, y, n, -, -, rfl⟩ := h
    split at hp <;> cases hp

theorem Executes.push_of_ne {i : Instr} {s : State} {e : Effects} (h : Executes i s e) (hp : e.push ≠ none) :
    ∃ a, i = .out a := by
  cases i with
  | out a => exact ⟨a, rfl⟩
  | hlt => exact h.elim
  | add | mul =>
    obtain ⟨x, y, dst, r, -, -, rfl⟩ := h
    exact absurd rfl hp
  | lt | eq =>
    obtain ⟨x, y, dst, -, rfl⟩ := h
    exact absurd rfl hp
  | arb =>
    obtain ⟨x, r, -, -, rfl⟩ := h
    exact absurd rfl hp
  | inp =>
    obtain ⟨dst, v, q, -, -, rfl⟩ := h
    exact absurd rfl hp
  | jnz | jz =>
    obtain ⟨x, y, n, -, -, rfl⟩ := h
    split at hp <;> exact absurd rfl hp

/-- A step only appends to `OUTQ` (R96). -/
theorem step_outq {s t : State} (h : step s = .next t) : ∃ vs, t.outq = s.outq ++ vs := by
  obtain ⟨-, ⟨e, -, rfl⟩ | ⟨i, -, h⟩⟩ := step_cases h
  · exact ⟨[], by simp⟩
  · obtain ⟨f, rfl⟩ | ⟨d, -, -, rfl⟩ | ⟨-, rfl⟩ | ⟨e, -, hc⟩ := exec_cases h
    · exact ⟨[], by simp⟩
    · exact ⟨[], by simp⟩
    · exact ⟨[], by simp⟩
    · obtain ⟨pc', -, -, rfl⟩ := complete_eq_ok.mp hc
      cases hp : e.push with
      | none => exact ⟨[], by simp [hp]⟩
      | some v => exact ⟨[v], by simp [hp]⟩

end Sys2Proof.Machine
end

