-- ==== Sys2Proof/Laws/HostPort.lean ====
section
/-! SUPPORT. The small laws of the host's command port (50_host_interface.md R106 to R117): what a command answers, so that no
later proof unfolds `transact` or `runCommand`. -/

namespace Sys2Proof.Machine

theorem transact_of_ne_faulted {s : State} (hs : s.status ≠ .faulted) (fuel : Nat) (c : Command) :
    transact fuel c s = perform fuel c s := by
  unfold transact
  split
  · contradiction
  all_goals rfl

theorem transact_of_faulted {s : State} (hs : s.status = .faulted) (fuel : Nat) (c : Command) :
    transact fuel c s = some (performFaulted c s) := by
  unfold transact
  rw [hs]

/-- A refused command changes nothing (R135). -/
@[simp] theorem performFaulted_state (c : Command) (s : State) : (performFaulted c s).2 = s := by
  cases c <;> rfl

theorem stepCommand_of_next {s t : State} (h : step s = .next t) : stepCommand s = (recordedResult t, t) := by
  unfold stepCommand
  rw [h]

theorem recordedResult_ne_refused (t : State) : recordedResult t ≠ .refused := by
  unfold recordedResult
  split <;> simp

/-- The result a next state records is a response of its own (R108). -/
theorem resultResponse_recordedResult (t : State) : resultResponse (recordedResult t) = .result (recordedResult t) := by
  unfold recordedResult
  split <;> rfl

@[simp] theorem runCommand_zero (s : State) : runCommand 0 s = none := rfl

theorem runCommand_of_ready {s t : State} (h : step s = .next t) (ht : t.status = .ready) (fuel : Nat) :
    runCommand (fuel + 1) s = runCommand fuel t := by
  rw [runCommand, stepCommand_of_next h]
  simp [recordedResult, ht]

theorem runCommand_of_ne_ready {s t : State} (h : step s = .next t) (ht : t.status ≠ .ready) (fuel : Nat) :
    runCommand (fuel + 1) s = some (recordedResult t, t) := by
  rw [runCommand, stepCommand_of_next h]
  cases e : t.status
  · exact absurd e ht
  all_goals simp [recordedResult, e]

/-- No command but `STEP` and `RUN` pushes, so that none counts as output (R96). -/
theorem enteredOutput_of_ne {c : Command} (h₁ : c ≠ .step) (h₂ : c ≠ .run) (s t : State) : enteredOutput c s t = [] := by
  cases c <;> first | rfl | contradiction

/-- Where `OUTQ` only grew at its end, the output entered is what was appended. -/
theorem enteredOutput_of_append {c : Command} (h : c = .step ∨ c = .run) {s t : State} {vs : List Word}
    (ht : t.outq = s.outq ++ vs) : enteredOutput c s t = vs := by
  obtain rfl | rfl := h <;> simp [enteredOutput, ht]

end Sys2Proof.Machine
end

