-- ==== Sys2Proof/Laws/Memory.lean ====
section
/-! SUPPORT. The laws of memory (20_memory.md R45 to R48): every operation keeps the canonical form, a read after a write to
the same address gives the value written, and a write leaves every other address alone. -/

namespace Sys2Proof.Machine

/-! ## Cell lists -/

@[simp] theorem Cells.get_nil (a : Nat) : Cells.get [] a = Word.zero := rfl

theorem Cells.get_cons (b : Nat) (w : Word) (cs : List (Nat × Word)) (a : Nat) :
    Cells.get ((b, w) :: cs) a = if a = b then w else Cells.get cs a := rfl

@[simp] theorem Cells.wf_nil (hi lo : Nat) : Cells.wf hi lo [] = true := rfl

@[simp] theorem Cells.wf_cons (hi lo a : Nat) (w : Word) (cs : List (Nat × Word)) :
    Cells.wf hi lo ((a, w) :: cs) = true ↔ lo ≤ a ∧ a < hi ∧ w ≠ Word.zero ∧ Cells.wf hi (a + 1) cs = true := by
  simp [Cells.wf, and_assoc]

theorem Cells.wf_mono {hi hi' lo lo' : Nat} {cs : List (Nat × Word)} (h : Cells.wf hi lo cs = true) (hlo : lo' ≤ lo)
    (hhi : hi ≤ hi') : Cells.wf hi' lo' cs = true := by
  induction cs generalizing lo lo' with
  | nil => rfl
  | cons c cs ih =>
    obtain ⟨h₁, h₂, h₃, h₄⟩ := (Cells.wf_cons ..).mp h
    exact (Cells.wf_cons ..).mpr ⟨by omega, by omega, h₃, ih h₄ le_rfl⟩

/-- Below its lower bound a canonical list lists nothing. -/
theorem Cells.get_of_lt {hi lo : Nat} {cs : List (Nat × Word)} (h : Cells.wf hi lo cs = true) {a : Nat} (ha : a < lo) :
    Cells.get cs a = Word.zero := by
  induction cs generalizing lo with
  | nil => rfl
  | cons c cs ih =>
    obtain ⟨h₁, -, -, h₄⟩ := (Cells.wf_cons ..).mp h
    rw [Cells.get_cons, if_neg (by omega)]
    exact ih h₄ (by omega)

/-- From its upper bound on a canonical list lists nothing. -/
theorem Cells.get_of_ge {hi lo : Nat} {cs : List (Nat × Word)} (h : Cells.wf hi lo cs = true) {a : Nat} (ha : hi ≤ a) :
    Cells.get cs a = Word.zero := by
  induction cs generalizing lo with
  | nil => rfl
  | cons c cs ih =>
    obtain ⟨-, h₂, -, h₄⟩ := (Cells.wf_cons ..).mp h
    rw [Cells.get_cons, if_neg (by omega)]
    exact ih h₄

theorem Cells.wf_put {hi hi' lo : Nat} {cs : List (Nat × Word)} (h : Cells.wf hi lo cs = true) {a : Nat} (v : Word)
    (hlo : lo ≤ a) (ha : a < hi') (hhi : hi ≤ hi') : Cells.wf hi' lo (Cells.put cs a v) = true := by
  induction cs generalizing lo with
  | nil => unfold Cells.put; split <;> simp [*]
  | cons c cs ih =>
    obtain ⟨b, w⟩ := c
    obtain ⟨h₁, h₂, h₃, h₄⟩ := (Cells.wf_cons ..).mp h
    unfold Cells.put
    split_ifs with hab hv hab' hv
    · exact Cells.wf_mono h le_rfl hhi
    · exact (Cells.wf_cons ..).mpr ⟨hlo, ha, hv, (Cells.wf_cons ..).mpr ⟨by omega, by omega, h₃, Cells.wf_mono h₄ le_rfl hhi⟩⟩
    · exact Cells.wf_mono h₄ (by omega) hhi
    · exact (Cells.wf_cons ..).mpr ⟨hlo, ha, hv, Cells.wf_mono h₄ (by omega) hhi⟩
    · exact (Cells.wf_cons ..).mpr ⟨h₁, by omega, h₃, ih h₄ (by omega)⟩

theorem Cells.get_put {hi lo : Nat} {cs : List (Nat × Word)} (h : Cells.wf hi lo cs = true) (a : Nat) (v : Word) (b : Nat) :
    Cells.get (Cells.put cs a v) b = if b = a then v else Cells.get cs b := by
  induction cs generalizing lo with
  | nil =>
    unfold Cells.put
    split
    · next hv => simp [hv]
    · exact Cells.get_cons ..
  | cons c cs ih =>
    obtain ⟨x, w⟩ := c
    obtain ⟨h₁, h₂, h₃, h₄⟩ := (Cells.wf_cons ..).mp h
    have hlt : b < x + 1 → Cells.get cs b = Word.zero := Cells.get_of_lt h₄
    unfold Cells.put
    rcases Nat.lt_trichotomy a x with hax | rfl | hax
    · rw [if_pos hax]
      split
      · next hv =>
        split
        · next hb => rw [Cells.get_cons, if_neg (by omega), hlt (by omega), hv]
        · rfl
      · exact Cells.get_cons ..
    · rw [if_neg (Nat.lt_irrefl a), if_pos rfl]
      split
      · next hv =>
        split
        · next hb => rw [hlt (by omega), hv]
        · next hb => rw [Cells.get_cons, if_neg hb]
      · rw [Cells.get_cons, Cells.get_cons]
        split <;> rfl
    · rw [if_neg (by omega), if_neg (by omega), Cells.get_cons, Cells.get_cons, ih h₄]
      split
      · rw [if_neg (by omega)]
      · rfl

/-! ## Memories -/

theorem Memory.read_of_len_le {m : Memory} {a : Nat} (h : m.len ≤ a) : m.read a = Word.zero := if_neg (by omega)

/-- In canonical form a read is the listed Word, or 0. -/
theorem Memory.read_eq_get {m : Memory} (h : m.wf = true) (a : Nat) : m.read a = Cells.get m.cells a := by
  unfold Memory.read
  split
  · rfl
  · exact (Cells.get_of_ge h (by omega)).symm

@[simp] theorem Memory.len_write (m : Memory) (a : Nat) (v : Word) : (m.write a v).len = max m.len (a + 1) := rfl

theorem Memory.wf_write {m : Memory} (h : m.wf = true) (a : Nat) (v : Word) : (m.write a v).wf = true :=
  Cells.wf_put h v (Nat.zero_le a) (by simp) (by simp)

/-- A read after a write: the value written at its address, and every other address as before. -/
theorem Memory.read_write {m : Memory} (h : m.wf = true) (a : Nat) (v : Word) (b : Nat) :
    (m.write a v).read b = if b = a then v else m.read b := by
  rw [Memory.read_eq_get (Memory.wf_write h a v), Memory.read_eq_get h]
  exact Cells.get_put h a v b

theorem Memory.read_write_self {m : Memory} (h : m.wf = true) (a : Nat) (v : Word) : (m.write a v).read a = v := by
  rw [Memory.read_write h, if_pos rfl]

theorem Memory.read_write_ne {m : Memory} (h : m.wf = true) {a b : Nat} (v : Word) (hb : b ≠ a) :
    (m.write a v).read b = m.read b := by
  rw [Memory.read_write h, if_neg hb]

theorem writeBack_wf {m : Memory} (h : m.wf = true) (w : Option (Addr × Word)) : (writeBack m w).wf = true := by
  cases w with
  | none => exact h
  | some w => exact Memory.wf_write h _ _

theorem le_writeBack_len (m : Memory) (w : Option (Addr × Word)) : m.len ≤ (writeBack m w).len := by
  cases w with
  | none => exact le_rfl
  | some w => exact le_max_left _ _

/-! ## The memory `INIT` makes -/

theorem Cells.wf_ofList (a : Nat) (ws : List Word) : Cells.wf (a + ws.length) a (Cells.ofList a ws) = true := by
  induction ws generalizing a with
  | nil => rfl
  | cons w ws ih =>
    have h := ih (a + 1)
    rw [show a + 1 + ws.length = a + (w :: ws).length by simp only [List.length_cons]; omega] at h
    unfold Cells.ofList
    split
    · exact Cells.wf_mono h (by omega) le_rfl
    · next hw => exact (Cells.wf_cons ..).mpr ⟨le_rfl, by simp, hw, h⟩

theorem Cells.get_ofList (a : Nat) (ws : List Word) (i : Nat) :
    Cells.get (Cells.ofList a ws) (a + i) = ws.getD i Word.zero := by
  induction ws generalizing a i with
  | nil => simp [Cells.ofList]
  | cons w ws ih =>
    have h (j : Nat) := ih (a + 1) j
    unfold Cells.ofList
    cases i with
    | zero =>
      split
      · next hw =>
        have := Cells.wf_ofList (a + 1) ws
        simpa [hw] using Cells.get_of_lt this (by omega)
      · simp [Cells.get_cons]
    | succ j =>
      rw [show a + (j + 1) = a + 1 + j by omega]
      split
      · simpa using h j
      · rw [Cells.get_cons, if_neg (by omega)]
        simpa using h j

@[simp] theorem Memory.len_ofList (ws : List Word) : (Memory.ofList ws).len = ws.length := rfl

theorem Memory.wf_ofList (ws : List Word) : (Memory.ofList ws).wf = true := by
  have h := Cells.wf_ofList 0 ws
  rwa [Nat.zero_add] at h

/-- `INIT` places Word `i` of the program at address `i`, and everything above reads 0 (R33, R52). -/
theorem Memory.read_ofList (ws : List Word) (i : Nat) : (Memory.ofList ws).read i = ws.getD i Word.zero := by
  rw [Memory.read_eq_get (Memory.wf_ofList ws)]
  have h := Cells.get_ofList 0 ws i
  rwa [Nat.zero_add] at h

theorem placeWords_wf {m : Memory} (h : m.wf = true) (a : Nat) (ws : List Word) : (placeWords m a ws).wf = true := by
  induction ws generalizing m a with
  | nil => exact h
  | cons w ws ih => exact ih (Memory.wf_write h a w) (a + 1)

theorem reset_mem_wf : State.reset.mem.wf = true := rfl

end Sys2Proof.Machine
end

