-- ==== Sys2Proof/Laws/PerInstr.lean ====
section
/-! SUPPORT. Statements about every instruction, one lemma per constructor (LAWS.json "per_instruction"). -/

/-! The family `EncodeWidth`: an instruction's encoding is as many Words as the instruction occupies (30_encoding.md R70),
and its first Word is its canonical head's number (R81). -/

namespace Sys2Proof.Laws.EncodeWidth

def Statement (i : Instr) : Prop :=
  (encode i).length = i.width ∧ (encode i).head? = some (encodeHead i.head)

theorem add (a b d : Param) : Statement (.add a b d) := ⟨rfl, rfl⟩
theorem mul (a b d : Param) : Statement (.mul a b d) := ⟨rfl, rfl⟩
theorem inp (d : Param) : Statement (.inp d) := ⟨rfl, rfl⟩
theorem out (a : Param) : Statement (.out a) := ⟨rfl, rfl⟩
theorem jnz (a t : Param) : Statement (.jnz a t) := ⟨rfl, rfl⟩
theorem jz (a t : Param) : Statement (.jz a t) := ⟨rfl, rfl⟩
theorem lt (a b d : Param) : Statement (.lt a b d) := ⟨rfl, rfl⟩
theorem eq (a b d : Param) : Statement (.eq a b d) := ⟨rfl, rfl⟩
theorem arb (a : Param) : Statement (.arb a) := ⟨rfl, rfl⟩
theorem hlt : Statement .hlt := ⟨rfl, rfl⟩

end Sys2Proof.Laws.EncodeWidth
end

