-- ==== Sys2Proof/Tests/Slice0.lean ====
section
/-! SUPPORT. The author's tests. Expected results are those of spec/95_test_vectors.md (named by their ids) or words written
out from the formula of 30_encoding.md R81. The theorems named `witness_…` show, for each statement with hypotheses, a state
and operands that meet them all, one for each clause. -/

namespace Sys2Proof.Tests
open Sys2Proof Sys2Proof.Machine Sys2Proof.Statements

/-! ## Helpers -/

/-- The next state of an outcome, if it is one. -/
def nextOf : Host.Outcome State Fault Refusal → Option State
  | .next t => some t
  | .fault _ => none
  | .refused _ => none

/-- The capacity 8 of the vectors M-2 to M-4 and IO-8, IO-9. -/
def cap8 : Config.Params := ⟨8, by decide, by decide⟩

/-- `INIT` of a program, with the given input in `INQ`. -/
def load (program input : List Int) : State :=
  writePort (input.map lit) (initState Config.resetParams (program.map lit))

/-- `INIT` of a program under the capacity 8. -/
def load8 (program input : List Int) : State :=
  writePort (input.map lit) (initState cap8 (program.map lit))

/-- The state with `rb` and `pc` at the given addresses. -/
def at_ (pc rb : Addr) (s : State) : State := { s with pc := pc, rb := rb }

/-- Parameters of each mode. -/
def pos (z : Int) : Param := ⟨.position, lit z⟩
def imm (z : Int) : Param := ⟨.immediate, lit z⟩
def rel (z : Int) : Param := ⟨.relative, lit z⟩

/-- What one step does to the Word at `a`, `pc`, `len` and `STATUS`. -/
def stepTo (s : State) (a : Nat) : Option (Int × Nat × Nat × Status) :=
  (nextOf (step s)).map fun t => ((t.mem.read a).val, t.pc.val, t.mem.len, t.status)

/-- The `FAULT` record a step leaves, when it faults, and the length of memory. -/
def stepFault (s : State) : Option (FatalKind × Nat × Int × Int × Nat) :=
  match nextOf (step s) with
  | none => none
  | some t => if t.status = .faulted then
      some (t.fault.kind, t.fault.pc.val, t.fault.word.val, t.fault.detail, t.mem.len) else none

/-! ## WellFormed: each check refuses an ill-formed term (R55, R77) -/

theorem test_wellFormed_refuses_immediate_target_of_add : (Instr.add (pos 0) (pos 0) (imm 3)).wellFormed = false := by decide
theorem test_wellFormed_refuses_immediate_target_of_mul : (Instr.mul (pos 0) (pos 0) (imm 3)).wellFormed = false := by decide
theorem test_wellFormed_refuses_immediate_target_of_in : (Instr.inp (imm 3)).wellFormed = false := by decide
theorem test_wellFormed_refuses_immediate_target_of_lt : (Instr.lt (pos 0) (pos 0) (imm 3)).wellFormed = false := by decide
theorem test_wellFormed_refuses_immediate_target_of_eq : (Instr.eq (pos 0) (pos 0) (imm 3)).wellFormed = false := by decide
theorem test_wellFormed_allows_immediate_jump_target : (Instr.jz (pos 101) (imm 0)).wellFormed = true := by decide

/-! ## Decode: every constructor, from words written out from R81 -/

/-- Some instruction, or nothing where the decoder rejects. -/
def decoded (ws : List Int) : Option Instr :=
  match decode (ws.map lit) with
  | .ok i => some i
  | .error _ => none

/-- R82: `ADD [9], #3, rb[2]` is `21001, 9, 3, 2`. -/
theorem test_decode_add : decoded [21001, 9, 3, 2] = some (.add (pos 9) (imm 3) (rel 2)) := by decide
/-- 2 + 100*2 + 1000*2 + 10000*2 (P3). -/
theorem test_decode_mul : decoded [22202, 0, 1, 1] = some (.mul (rel 0) (rel 1) (rel 1)) := by decide
/-- 3 + 100*2 (IO-5). -/
theorem test_decode_in : decoded [203, 4] = some (.inp (rel 4)) := by decide
/-- 4 + 100*2 (E4), and digit 1 in an unused position (D-4). -/
theorem test_decode_out :
    decoded [204, -1] = some (.out (rel (-1))) ∧ decoded [10004, 0] = some (.out (pos 0)) := by decide
/-- 5 + 100*1 + 1000*1 (P3). -/
theorem test_decode_jnz : decoded [1105, 1, 8] = some (.jnz (imm 1) (imm 8)) := by decide
/-- 6 + 100*2 + 1000*1 (P3). -/
theorem test_decode_jz : decoded [1206, 0, 22] = some (.jz (rel 0) (imm 22)) := by decide
/-- 7 + 100*1 + 1000*1 (A-17). -/
theorem test_decode_lt : decoded [1107, -1, 0, 5] = some (.lt (imm (-1)) (imm 0) (pos 5)) := by decide
/-- 8 + 1000*1 (E4). -/
theorem test_decode_eq : decoded [1008, 100, 16, 101] = some (.eq (pos 100) (imm 16) (pos 101)) := by decide
/-- 9 + 100*1 (B-2). -/
theorem test_decode_arb : decoded [109, -5] = some (.arb (imm (-5))) := by decide
/-- 99, and mode digits on HLT (D-6, C-12). -/
theorem test_decode_hlt : decoded [99] = some .hlt ∧ decoded [299] = some .hlt ∧ decoded [22299] = some .hlt := by decide
/-- An Immediate write target decodes (M-9; R80). -/
theorem test_decode_immediate_target : decoded [11101, 1, 1, 5] = some (.add (imm 1) (imm 1) (imm 5)) := by decide
/-- D-7 to D-14: the words that do not decode. -/
theorem test_decode_rejects :
    ([0, 100, 10, 98, 12345, 30001, 399, 3004, 30004, 99999, 100001, -1].map fun w => decoded [w, 0, 0, 0]) =
      List.replicate 12 none := by decide
/-- D-13, D-14, D-7, D-10: the reasons by name. -/
theorem test_decode_reasons :
    decode [lit 100001] = .error .tooManyDigits ∧ decode [lit (-1)] = .error .negativeWord ∧
    decode [lit 0] = .error (.unknownOpcode 0) ∧ decode [lit 30001] = .error (.badModeDigit 3) := ⟨rfl, rfl, rfl, rfl⟩
/-- R81 and R82: the encoder writes the spec's own example. -/
theorem test_encode_add : (encode (.add (pos 9) (imm 3) (rel 2))).map Word.val = [21001, 9, 3, 2] := by decide
/-- Log 6: Word 0 is bits 63..0, Word 1 bits 127..64, two's complement: `OUT rb[-1]`. -/
theorem test_decodeTableWord :
    decodeTableWord 128 (204 + 18446744073709551615 * 18446744073709551616) = some (.out (rel (-1))) := by decide

/-! ## One step of each instruction -/

/-- A-2. -/
theorem test_add : stepTo (load [1101, -5, 3, 5, 99] []) 5 = some (-2, 4, 6, .ready) := by decide
/-- A-5. -/
theorem test_add_overflow : stepFault (load [1101, Config.wordMax, 1, 5, 99] []) =
    some (.arithmeticOverflow, 0, 1101, 9223372036854775808, 5) := by decide
/-- A-11. -/
theorem test_mul : stepTo (load [1102, -4611686018427387904, 2, 5, 99] []) 5 = some (Config.wordMin, 4, 6, .ready) := by
  decide
/-- A-13. -/
theorem test_mul_overflow : stepFault (load [1102, Config.wordMin, -1, 5, 99] []) =
    some (.arithmeticOverflow, 0, 1102, 9223372036854775808, 5) := by decide
/-- A-17: signed. -/
theorem test_lt_signed : stepTo (load [1107, -1, 0, 5, 99] []) 5 = some (1, 4, 6, .ready) := by decide
/-- A-16: strict. A write of 0 beyond the end still grows memory (R47). -/
theorem test_lt_strict : stepTo (load [1107, 2, 2, 5, 99] []) 5 = some (0, 4, 6, .ready) := by decide
/-- A-19. -/
theorem test_eq_equal : stepTo (load [1108, 7, 7, 5, 99] []) 5 = some (1, 4, 6, .ready) := by decide
/-- A-20. -/
theorem test_eq_unequal : stepTo (load [1108, 7, -7, 5, 99] []) 5 = some (0, 4, 6, .ready) := by decide
/-- IO-3: the value lands on the instruction's own parameter word. -/
theorem test_in : stepTo (load [3, 1, 99] [7, 8]) 1 = some (7, 2, 3, .ready) ∧
    ((nextOf (step (load [3, 1, 99] [7, 8]))).map fun t => t.inq.map Word.val) = some [8] := by decide
/-- IO-9: blocking comes before the capacity check; IO-8: a faulting IN keeps its value. -/
theorem test_in_capacity : nextOf (step (load8 [3, 10, 99] [])) = some { load8 [3, 10, 99] [] with status := .blocked } ∧
    stepFault (load8 [3, 10, 99] [1]) = some (.capacityExceeded, 0, 3, 10, 3) ∧
    ((nextOf (step (load8 [3, 10, 99] [1]))).map fun t => t.inq.map Word.val) = some [1] := by decide
/-- IO-10 and M-1. -/
theorem test_out :
    ((nextOf (step (load [104, -17, 99] []))).map fun t => (t.outq.map Word.val, t.pc.val, t.mem.len)) = some ([-17], 2, 3) ∧
    ((nextOf (step (load [4, 100, 99] []))).map fun t => (t.outq.map Word.val, t.pc.val, t.mem.len)) = some ([0], 2, 3) := by
  decide
/-- IO-13. -/
theorem test_out_bad_address : stepFault (load [204, -1, 99] []) = some (.invalidAddress, 0, 204, -1, 3) := by decide
/-- C-6, C-7: a Position and a Relative target; C-2: not taken. -/
theorem test_jnz : stepTo (load [5, 4, 5, 99, 1, 4] []) 0 = some (5, 4, 6, .ready) ∧
    stepTo (load [2105, 1, 0, 99] []) 0 = some (2105, 2105, 4, .ready) ∧
    stepTo (load [1105, 0, 7, 104, 0, 99, 0, 104, 1, 99] []) 0 = some (1105, 3, 10, .ready) := by decide
/-- C-8: the target of a jump that is not taken is checked. -/
theorem test_jnz_negative_target : stepFault (load [1105, 0, -1, 99] []) = some (.invalidAddress, 0, 1105, -1, 4) := by decide
/-- C-5: taken; C-4: not taken. -/
theorem test_jz : stepTo (load [6, 5, 6, 99, 99, 0, 4, 99] []) 0 = some (6, 4, 8, .ready) ∧
    stepTo (load [1106, 1, 7, 104, 0, 99, 0, 104, 1, 99] []) 0 = some (1106, 3, 10, .ready) := by decide
/-- C-9. -/
theorem test_jz_negative_target : stepFault (load [1106, 1, -1, 99] []) = some (.invalidAddress, 0, 1106, -1, 4) := by decide
/-- B-4. -/
theorem test_arb : ((nextOf (step (load [9, 3, 99, 7] []))).map fun t => (t.rb.val, t.pc.val)) = some (7, 2) := by decide
/-- B-3. -/
theorem test_arb_negative : stepFault (load [109, -1, 99] []) = some (.invalidAddress, 0, 109, -1, 3) := by decide
/-- C-11: the second step of a halted instance. -/
theorem test_hlt : stepTo (load [99] []) 0 = some (99, 0, 1, .halted) ∧
    stepTo { load [99] [] with status := .halted } 0 = some (99, 0, 1, .halted) := by decide

/-! ## Memory, priority, refusal -/

/-- M-2, M-3, M-4: growth with zeros, the capacity, and overflow before capacity. -/
theorem test_capacity : stepTo (load8 [1101, 1, 1, 7, 99] []) 6 = some (0, 4, 8, .ready) ∧
    stepFault (load8 [1101, 1, 1, 10, 99] []) = some (.capacityExceeded, 0, 1101, 10, 5) ∧
    stepFault (load8 [1101, Config.wordMax, 1, 10, 99] []) =
      some (.arithmeticOverflow, 0, 1101, 9223372036854775808, 5) := by decide
/-- X-1, X-2, X-3. -/
theorem test_priority : stepFault (load [103, -1] []) = some (.invalidWriteTarget, 0, 103, 1, 2) ∧
    stepFault (load [1, -1, 0, -2, 99] []) = some (.invalidAddress, 0, 1, -1, 5) ∧
    stepFault (load [11101, -1, 0, 5, 99] []) = some (.invalidWriteTarget, 0, 11101, 3, 5) :=
  ⟨by decide, by decide, by decide⟩
/-- M-10, its last step: the address above `ADDR_MAX`. -/
theorem test_address_above_max :
    stepFault (at_ 8 18446744073709551615 (load [109, Config.wordMax, 109, Config.wordMax, 109, 1, 204, 0, 204, 1, 99] [])) =
      some (.invalidAddress, 8, 204, 18446744073709551616, 11) := by decide
/-- H-8: what a faulted instance answers. -/
theorem test_faulted_refuses :
    let s : State := { load [1, -1, 0, 0, 99] [] with status := .faulted, fault := ⟨.invalidAddress, 0, lit 1, -1⟩ }
    ([Command.step, .run, .writePort [lit 1], .clone, .peek 0].map fun c => (transact 1 c s).map Prod.fst) =
        List.replicate 5 (some .refused) ∧
      (transact 1 .readStatus s).map Prod.fst = some (.status .faulted (some ⟨.invalidAddress, 0, lit 1, -1⟩)) := by decide
/-- H-1 to H-6, from `OUTQ = [3,2,1]`. -/
theorem test_host_reads :
    let s (q : List Int) : State := { load [] [] with outq := q.map lit }
    readExact 4 (s [3, 2, 1]) = (none, s [3, 2, 1]) ∧ readExact 0 (s [3, 2, 1]) = (some [], s [3, 2, 1]) ∧
      readExact 2 (s [3, 2, 1]) = (some [lit 3, lit 2], s [1]) ∧ readPort (s [1]) = (some (lit 1), s []) ∧
      readPort (s []) = (none, s []) ∧ readAll (s []) = ([], s []) := by decide
/-- H-9: `READ_STATUS` after a blocked step and `WRITE_PORT`. -/
theorem test_status_after_write_port :
    (transact 1 .readStatus (writePort [lit 1] { load [3, 5, 99] [] with status := .blocked })).map Prod.fst =
      some (.status .blocked none) := by decide
/-- D-15: the first step after reset. -/
theorem test_reset_step : stepFault State.reset = some (.invalidOpcode, 0, 0, 0, 0) := by decide
/-- Logs 6 and 7: the instruction placed for the host's questions runs as the first one. -/
theorem test_withFetchWord :
    ((nextOf (step (State.reset.withFetchWord 64 99))).map fun t => t.status) = some .halted := by decide

/-! ## Witnesses of the statements' hypotheses -/

/-- A step that answers a next state, as a decidable fact. -/
theorem next_of_eq {o : Host.Outcome State Fault Refusal} {t : State} (h : nextOf o = some t) : o = .next t := by
  cases o with
  | next u => exact congrArg Host.Outcome.next (Option.some.inj h)
  | fault f => cases h
  | refused r => cases h

/-- A state whose step blocks (IO-1), whose step halts, whose step continues (E1), whose step faults (M-5). -/
def blocks : State := load [3, 5, 99] []
def halts : State := load [99] []
def adds : State := load [1, 0, 0, 0, 99] []
def faults : State := load [1, -1, 0, 0, 99] []

/-- The state a step of `s` reaches (`s` itself where it reaches none). -/
def after (s : State) : State := (nextOf (step s)).getD s

theorem blocks_steps : step blocks = .next (after blocks) ∧ (after blocks).status = .blocked := ⟨next_of_eq (by decide), by decide⟩
theorem halts_steps : step halts = .next (after halts) ∧ (after halts).status = .halted := ⟨next_of_eq (by decide), by decide⟩
theorem adds_steps : step adds = .next (after adds) ∧ (after adds).status = .ready := ⟨next_of_eq (by decide), by decide⟩
theorem faults_steps : step faults = .next (after faults) ∧ (after faults).status = .faulted :=
  ⟨next_of_eq (by decide), by decide⟩

/-- `ADDR_MAX` and its neighbours below. -/
def maxAddr : Addr := 18446744073709551615
def atMax (n : Nat) : Addr := ⟨18446744073709551615 - n, by simp only [Config.addrMax]; omega⟩

/-! ### Encoding -/

theorem witness_EncodeOfCanonicalDecodeIsTheWord :
    (decodeHead (lit 21001) = .ok ⟨.add, .position, .immediate, .relative⟩ ∧ IsCanonical ⟨.add, .position, .immediate, .relative⟩) ∧
    decodeHead (lit 99) = .ok ⟨.hlt, .position, .position, .position⟩ ∧ IsCanonical ⟨.hlt, .position, .position, .position⟩ :=
  ⟨⟨rfl, by simp [IsCanonical, Opcode.params]⟩, rfl, by simp [IsCanonical]⟩

/-- The greatest and the least number that decode (first clause), and two spellings of HLT (second clause). -/
theorem witness_WordDecodesExactlyWhenItsDigitsAreLegal :
    decodeHead (lit 22299) = .ok ⟨.hlt, .relative, .relative, .relative⟩ ∧
    decodeHead (lit 1) = .ok ⟨.add, .position, .position, .position⟩ ∧
    decodeHead (lit 99) = .ok ⟨.hlt, .position, .position, .position⟩ ∧
    SameUsedFields ⟨.hlt, .relative, .relative, .relative⟩ ⟨.hlt, .position, .position, .position⟩ :=
  ⟨rfl, rfl, rfl, by simp [SameUsedFields, Opcode.params]⟩

theorem witness_UndecodableWordFaultsInvalidOpcode :
    ((load [100000] []).status ≠ .faulted ∧ decode (wordsAtPc (load [100000] [])) = .error .tooManyDigits) ∧
    decode (wordsAtPc (load [-1] [])) = .error .negativeWord ∧
    decode (wordsAtPc (load [] [])) = .error (.unknownOpcode 0) :=
  ⟨⟨by decide, rfl⟩, rfl, rfl⟩

theorem witness_StepRunsTheDecodedInstruction :
    adds.status ≠ .faulted ∧ decode (wordsAtPc adds) = .ok (.add (pos 0) (pos 0) (pos 0)) := ⟨by decide, rfl⟩

theorem witness_EncodedInstructionAtPcRuns :
    adds.status ≠ .faulted ∧ ∀ k < (Instr.add (pos 0) (pos 0) (pos 0)).width,
      adds.mem.read (adds.pc.val + k) = (encode (.add (pos 0) (pos 0) (pos 0))).getD k Word.zero := by decide

/-! ### Operands: each clause at the ends of its range -/

theorem witness_ReadOperandFollowsItsMode :
    0 ≤ (lit 0).val ∧ (lit (-1)).val < 0 ∧
    (0 ≤ ((at_ 0 1 adds).rb.val : Int) + (lit (-1)).val ∧ ((at_ 0 1 adds).rb.val : Int) + (lit (-1)).val ≤ Config.addrMax) ∧
    (0 ≤ ((at_ 0 maxAddr adds).rb.val : Int) + (lit 0).val ∧
      ((at_ 0 maxAddr adds).rb.val : Int) + (lit 0).val ≤ Config.addrMax) ∧
    ((at_ 0 0 adds).rb.val : Int) + (lit (-1)).val < 0 ∧
    (Config.addrMax : Int) < (at_ 0 maxAddr adds).rb.val + (lit 1).val :=
  ⟨by decide, by decide, by decide, by decide, by decide, by decide⟩

theorem witness_WriteAddressFollowsItsMode :
    (((0 : Addr).val : Int) = (lit 0).val ∧ (lit (-1)).val < 0) ∧
    ((maxAddr.val : Int) = (at_ 0 maxAddr adds).rb.val + (lit 0).val) ∧
    (((0 : Addr).val : Int) = (at_ 0 1 adds).rb.val + (lit (-1)).val) ∧
    ((at_ 0 0 adds).rb.val : Int) + (lit (-1)).val < 0 ∧
    (Config.addrMax : Int) < (at_ 0 maxAddr adds).rb.val + (lit 1).val :=
  ⟨by decide, by decide, by decide, by decide, by decide⟩

/-! ### Memory -/

/-- A canonical memory with an unlisted Word below its length (for the two statements over one memory). -/
theorem witness_MemoryReadIsTheArrayRead : (Memory.mk 3 [(1, lit 5)]).wf = true := by decide
theorem witness_MemoryWriteIsTheArrayWrite : (Memory.mk 3 [(1, lit 5)]).wf = true ∧ (Memory.mk 0 []).wf = true := by decide

/-- Two memories built differently: a program, and the writes of its Words. -/
theorem witness_CanonicalMemoriesWithEqualReadsAreEqual :
    let m := Memory.ofList [lit 0, lit 5]
    let m' := (Memory.write ⟨0, []⟩ 1 (lit 5)).write 0 (lit 0)
    m.wf = true ∧ m'.wf = true ∧ m.len = m'.len ∧ ∀ a, m.read a = m'.read a :=
  ⟨by decide, by decide, by decide, fun _ => rfl⟩

/-- A completing store, a step that does not complete, an instruction without a write parameter, and a command. -/
theorem witness_MemoryLengthNeverDecreases :
    (∃ t, step adds = .next t ∧ t.status = .ready ∧ fetch adds = .ok (.add (pos 0) (pos 0) (pos 0)) ∧
      writeParam? (.add (pos 0) (pos 0) (pos 0)) = some (3, pos 0)) ∧
    (∃ t, step halts = .next t ∧ t.status ≠ .ready ∧ fetch halts = .ok .hlt ∧ writeParam? .hlt = none) ∧
    Responds .readAll adds (.all []) adds ∧ Command.readAll ≠ .step ∧ Command.readAll ≠ .run :=
  ⟨⟨_, adds_steps.1, adds_steps.2, rfl, rfl⟩, ⟨_, halts_steps.1, by decide, rfl, rfl⟩, ⟨0, rfl⟩, by decide, by decide⟩

theorem witness_StepNeverGrowsMemoryBeyondCapacity : ∃ t, step adds = .next t := ⟨_, adds_steps.1⟩

/-- P4, with operands for which each of the four results is what the statement asks; and an IN. -/
theorem witness_StoredWordIsFetchedByTheNextStep :
    (let s := load [1101, 4, 95, 4] []
     s.mem.wf = true ∧ readOperand s (imm 4) = .ok (lit 4) ∧ readOperand s (imm 95) = .ok (lit 95) ∧
     writeAddr s 3 (pos 4) = .ok 4 ∧ (4 : Addr).val = s.pc.val + 4 ∧ (4 : Addr).val < s.params.memCapacity ∧
     (lit 99).val = (lit 4).val + (lit 95).val ∧ (lit 380).val = (lit 4).val * (lit 95).val ∧
     (lit 1).val = (if (lit 4).val < (lit 95).val then 1 else 0) ∧ (lit 0).val = (if lit 4 = lit 95 then 1 else 0)) ∧
    (let s := load [3, 2] [99]
     s.mem.wf = true ∧ writeAddr s 1 (pos 2) = .ok 2 ∧ s.inq = lit 99 :: [] ∧ (2 : Addr).val = s.pc.val + 2 ∧
     (2 : Addr).val < s.params.memCapacity) :=
  ⟨⟨by decide, rfl, rfl, rfl, by decide, by decide, by decide, by decide, by decide, by decide⟩, by decide, rfl, by decide,
    by decide, by decide⟩

/-! ### Completion: operands at the ends of the ranges, `pc'` at `ADDR_MAX`, the write just below the capacity 8 -/

/-- The operands the four three-parameter statements share: the sum, the product and the comparisons fit. -/
theorem witness_F3 (s : State) (hs : s = at_ (atMax 4) 0 (load8 [7, 1] [])) :
    readOperand s (pos 0) = .ok (lit 7) ∧ readOperand s (pos 1) = .ok (lit 1) ∧ writeAddr s 3 (pos 7) = .ok 7 ∧
    maxAddr.val = s.pc.val + 4 ∧ (7 : Addr).val < s.params.memCapacity := by
  subst hs
  exact ⟨rfl, rfl, rfl, by decide, by decide⟩

theorem witness_AddStoresTheExactSum : ∃ (s : State) (x y r : Word) (dst pc' : Addr),
    readOperand s (pos 0) = .ok x ∧ readOperand s (pos 1) = .ok y ∧ writeAddr s 3 (pos 7) = .ok dst ∧
    r.val = x.val + y.val ∧ pc'.val = s.pc.val + 4 ∧ dst.val < s.params.memCapacity :=
  ⟨_, lit 7, lit 1, lit 8, 7, maxAddr, (witness_F3 _ rfl).1, (witness_F3 _ rfl).2.1, (witness_F3 _ rfl).2.2.1, by decide,
    (witness_F3 _ rfl).2.2.2⟩

/-- The sum at the end of the Word range. -/
theorem witness_AddStoresTheExactSum_wordMax :
    readOperand adds (imm Config.wordMax) = .ok (lit Config.wordMax) ∧ readOperand adds (imm 0) = .ok (lit 0) ∧
    writeAddr adds 3 (pos 5) = .ok 5 ∧ (lit Config.wordMax).val = (lit Config.wordMax).val + (lit 0).val ∧
    (4 : Addr).val = adds.pc.val + 4 ∧ (5 : Addr).val < adds.params.memCapacity :=
  ⟨rfl, rfl, rfl, by decide, by decide, by decide⟩

theorem witness_MulStoresTheExactProduct : ∃ (s : State) (x y r : Word) (dst pc' : Addr),
    readOperand s (pos 0) = .ok x ∧ readOperand s (pos 1) = .ok y ∧ writeAddr s 3 (pos 7) = .ok dst ∧
    r.val = x.val * y.val ∧ pc'.val = s.pc.val + 4 ∧ dst.val < s.params.memCapacity :=
  ⟨_, lit 7, lit 1, lit 7, 7, maxAddr, (witness_F3 _ rfl).1, (witness_F3 _ rfl).2.1, (witness_F3 _ rfl).2.2.1, by decide,
    (witness_F3 _ rfl).2.2.2⟩

theorem witness_LtStoresTheSignedComparison : ∃ (s : State) (x y r : Word) (dst pc' : Addr),
    readOperand s (pos 0) = .ok x ∧ readOperand s (pos 1) = .ok y ∧ writeAddr s 3 (pos 7) = .ok dst ∧
    (x.val < y.val → r.val = 1) ∧ (y.val ≤ x.val → r.val = 0) ∧ pc'.val = s.pc.val + 4 ∧ dst.val < s.params.memCapacity :=
  ⟨_, lit 7, lit 1, lit 0, 7, maxAddr, (witness_F3 _ rfl).1, (witness_F3 _ rfl).2.1, (witness_F3 _ rfl).2.2.1, by decide,
    by decide, (witness_F3 _ rfl).2.2.2⟩

theorem witness_EqStoresTheEqualityTest : ∃ (s : State) (x y r : Word) (dst pc' : Addr),
    readOperand s (pos 0) = .ok x ∧ readOperand s (pos 1) = .ok y ∧ writeAddr s 3 (pos 7) = .ok dst ∧
    (x = y → r.val = 1) ∧ (x ≠ y → r.val = 0) ∧ pc'.val = s.pc.val + 4 ∧ dst.val < s.params.memCapacity :=
  ⟨_, lit 7, lit 1, lit 0, 7, maxAddr, (witness_F3 _ rfl).1, (witness_F3 _ rfl).2.1, (witness_F3 _ rfl).2.2.1, by decide,
    by decide, (witness_F3 _ rfl).2.2.2⟩

theorem witness_InStoresAndTakesTheOldestInput :
    let s := at_ (atMax 2) 0 (load8 [] [42, 43])
    writeAddr s 1 (pos 7) = .ok 7 ∧ s.inq = lit 42 :: [lit 43] ∧ maxAddr.val = s.pc.val + 2 ∧
    (7 : Addr).val < s.params.memCapacity :=
  ⟨rfl, by decide, by decide, by decide⟩

/-- The three clauses with hypotheses; the addresses are at and just beyond both ends of `[0, ADDR_MAX]`. -/
theorem witness_OutAppendsItsValue :
    (GoodAddress (at_ (atMax 2) maxAddr adds) (rel 0) ∧ maxAddr.val = (at_ (atMax 2) maxAddr adds).pc.val + 2) ∧
    BadAddress (at_ 0 maxAddr adds) (rel 1) 18446744073709551616 ∧ BadAddress adds (pos (-1)) (-1) ∧
    (GoodAddress (at_ (atMax 1) 0 adds) (pos 0) ∧ Config.addrMax < (at_ (atMax 1) 0 adds).pc.val + 2) := by
  refine ⟨⟨?_, by decide⟩, ⟨rfl, .inr (by decide)⟩, ⟨rfl, .inl (by decide)⟩, ?_, by decide⟩
  · intro z h
    cases h
    decide
  · intro z h
    cases h
    decide

/-- Taken to address 0, and not taken up to `ADDR_MAX`. -/
theorem witness_JnzJumpsWhenNotZero :
    (readOperand adds (imm 1) = .ok (lit 1) ∧ readOperand adds (imm 0) = .ok (lit 0) ∧ 0 ≤ (lit 0).val ∧
      ((lit 1).val ≠ 0 → (((0 : Addr).val : Nat) : Int) = (lit 0).val) ∧ ((lit 1).val = 0 → (0 : Addr).val = adds.pc.val + 3)) ∧
    (readOperand (at_ (atMax 3) 0 adds) (imm 0) = .ok (lit 0) ∧ 0 ≤ (lit 0).val ∧
      ((lit 0).val ≠ 0 → ((maxAddr.val : Nat) : Int) = (lit 0).val) ∧
      ((lit 0).val = 0 → maxAddr.val = (at_ (atMax 3) 0 adds).pc.val + 3)) :=
  ⟨⟨rfl, rfl, by decide, by decide, by decide⟩, rfl, by decide, by decide, by decide⟩

theorem witness_JzJumpsWhenZero :
    (readOperand adds (imm 0) = .ok (lit 0) ∧ 0 ≤ (lit 0).val ∧
      ((lit 0).val = 0 → (((0 : Addr).val : Nat) : Int) = (lit 0).val) ∧ ((lit 0).val ≠ 0 → (0 : Addr).val = adds.pc.val + 3)) ∧
    (readOperand (at_ (atMax 3) 0 adds) (imm 1) = .ok (lit 1) ∧
      readOperand (at_ (atMax 3) 0 adds) (imm 0) = .ok (lit 0) ∧ 0 ≤ (lit 0).val ∧
      ((lit 1).val = 0 → ((maxAddr.val : Nat) : Int) = (lit 0).val) ∧
      ((lit 1).val ≠ 0 → maxAddr.val = (at_ (atMax 3) 0 adds).pc.val + 3)) :=
  ⟨⟨rfl, by decide, by decide, by decide⟩, rfl, rfl, by decide, by decide, by decide⟩

theorem witness_HltHaltsWithoutAdvancing : ∃ t, step halts = .next t ∧ t.status = .halted := ⟨_, halts_steps⟩

/-- The new base at both ends of its range. -/
theorem witness_ArbAddsToTheRelativeBase :
    (readOperand (at_ 0 1 adds) (imm (-1)) = .ok (lit (-1)) ∧
      ((0 : Addr).val : Int) = (at_ 0 1 adds).rb.val + (lit (-1)).val ∧ (2 : Addr).val = (at_ 0 1 adds).pc.val + 2) ∧
    (readOperand (at_ (atMax 2) (atMax 1) adds) (imm 1) = .ok (lit 1) ∧
      (maxAddr.val : Int) = (at_ (atMax 2) (atMax 1) adds).rb.val + (lit 1).val ∧
      maxAddr.val = (at_ (atMax 2) (atMax 1) adds).pc.val + 2) :=
  ⟨⟨rfl, by decide, by decide⟩, rfl, by decide, by decide⟩

/-! ### Frames -/

/-- For each of the four instructions, a completion; and a fault. -/
theorem witness_ArithmeticFrame : adds.mem.wf = true ∧
    (∀ i ∈ [Instr.add (pos 0) (pos 0) (pos 0), .mul (pos 0) (pos 0) (pos 0), .lt (pos 0) (pos 0) (pos 0),
      .eq (pos 0) (pos 0) (pos 0)], ∃ t, nextOf (exec i adds) = some t ∧ t.status = .ready) ∧
    (∃ t, exec (.add (pos (-1)) (pos 0) (pos 0)) adds = .next t ∧ t.status = .faulted) ∧
    writeAddr adds 3 (pos 0) = .ok 0 := by
  refine ⟨by decide, ?_, ⟨_, rfl, rfl⟩, rfl⟩
  intro i hi
  simp only [List.mem_cons, List.not_mem_nil, or_false] at hi
  rcases hi with rfl | rfl | rfl | rfl
  all_goals exact ⟨_, rfl, rfl⟩

/-- A completion, a blocked step and a fault. -/
theorem witness_InputFrame : blocks.mem.wf = true ∧ writeAddr blocks 1 (pos 5) = .ok 5 ∧
    (∃ t, exec (.inp (pos 5)) (writePort [lit 1] blocks) = .next t ∧ t.status = .ready) ∧
    (∃ t, exec (.inp (pos 5)) blocks = .next t ∧ t.status = .blocked) ∧
    (∃ t, exec (.inp (imm 5)) blocks = .next t ∧ t.status = .faulted) :=
  ⟨by decide, rfl, ⟨_, rfl, rfl⟩, ⟨_, rfl, rfl⟩, ⟨_, rfl, rfl⟩⟩

theorem witness_NonStoringFrame :
    (∃ t, exec (.out (imm 1)) adds = .next t ∧ t.status = .ready) ∧
    (∃ t, exec (.jnz (imm 1) (imm 0)) adds = .next t ∧ t.status = .ready) ∧
    (∃ t, exec (.jz (imm 1) (imm 0)) adds = .next t ∧ t.status = .ready) ∧
    (∃ t, exec (.arb (imm 1)) adds = .next t ∧ t.status = .ready) ∧
    (∃ t, exec .hlt adds = .next t ∧ t.status = .halted) ∧ Instr.out (imm 1) ≠ .arb (imm 1) :=
  ⟨⟨_, rfl, rfl⟩, ⟨_, rfl, rfl⟩, ⟨_, rfl, rfl⟩, ⟨_, rfl, rfl⟩, ⟨_, rfl, rfl⟩, by decide⟩

/-! ### Faults -/

theorem witness_ImmediateWriteTargetRecord : (imm 3).mode = .immediate ∧
    Instr.mul (pos 0) (pos 0) (imm 3) ∈ [Instr.add (pos 0) (pos 0) (imm 3), .mul (pos 0) (pos 0) (imm 3),
      .lt (pos 0) (pos 0) (imm 3), .eq (pos 0) (pos 0) (imm 3)] := by decide

/-- A parameter whose address is good, just below 0, or just above `ADDR_MAX`, for every clause. -/
theorem witness_AddressFaultsComeInParameterOrder :
    let s := at_ 0 maxAddr adds
    (rel 1).mode ≠ .immediate ∧ (pos (-1)).mode ≠ .immediate ∧ BadAddress s (rel 1) 18446744073709551616 ∧
    BadAddress s (pos (-1)) (-1) ∧ GoodAddress s (rel 0) ∧ GoodAddress s (pos 0) ∧ GoodAddress s (imm (-1)) := by
  refine ⟨by decide, by decide, ⟨rfl, .inr (by decide)⟩, ⟨rfl, .inl (by decide)⟩, ?_, ?_, ?_⟩
  · intro z h
    cases h
    decide
  · intro z h
    cases h
    decide
  · intro z h
    cases h

/-- Just outside both ends of the Word range, by a sum and by a product. -/
theorem witness_ResultOutsideTheWordRangeFaults :
    (∀ z ∈ [Config.wordMax, 1, Config.wordMin, -1, 4611686018427387904, 2], readOperand adds (imm z) = .ok (lit z)) ∧
    writeAddr adds 3 (pos 5) = .ok 5 ∧
    Config.wordMax < (lit Config.wordMax).val + (lit 1).val ∧ (lit Config.wordMin).val + (lit (-1)).val < Config.wordMin ∧
    Config.wordMax < (lit 4611686018427387904).val * (lit 2).val ∧
    (lit Config.wordMin).val * (lit 2).val < Config.wordMin := by
  exact ⟨fun z _ => rfl, rfl, by decide, by decide, by decide, by decide⟩

/-- A write at the capacity itself. -/
theorem witness_WriteAtOrAboveCapacityFaults :
    let s := load8 [] [1]
    readOperand s (imm 1) = .ok (lit 1) ∧ writeAddr s 3 (pos 8) = .ok 8 ∧ (4 : Addr).val = s.pc.val + 4 ∧
    s.params.memCapacity ≤ (8 : Addr).val ∧ Config.wordMin ≤ (lit 1).val + (lit 1).val ∧
    (lit 1).val + (lit 1).val ≤ Config.wordMax ∧ Config.wordMin ≤ (lit 1).val * (lit 1).val ∧
    (lit 1).val * (lit 1).val ≤ Config.wordMax ∧ writeAddr s 1 (pos 8) = .ok 8 ∧ s.inq ≠ [] ∧
    (2 : Addr).val = s.pc.val + 2 :=
  ⟨rfl, rfl, by decide, by decide, by decide, by decide, by decide, by decide, rfl, by decide, by decide⟩

theorem witness_JumpTargetAndRelativeBaseFaults :
    readOperand adds (imm 1) = .ok (lit 1) ∧ readOperand adds (imm (-1)) = .ok (lit (-1)) ∧ (lit (-1)).val < 0 ∧
    (adds.rb.val : Int) + (lit (-1)).val < 0 ∧ readOperand (at_ 0 maxAddr adds) (imm 1) = .ok (lit 1) ∧
    (Config.addrMax : Int) < (at_ 0 maxAddr adds).rb.val + (lit 1).val :=
  ⟨rfl, rfl, by decide, by decide, rfl, by decide⟩

/-- `pc` at the least address from which each length of instruction runs past `ADDR_MAX`. -/
theorem witness_PcPastTheLastAddressFaults :
    Config.addrMax < (at_ (atMax 3) 0 adds).pc.val + 4 ∧ Config.addrMax < (at_ (atMax 1) 0 adds).pc.val + 2 ∧
    Config.addrMax < (at_ (atMax 2) 0 adds).pc.val + 3 ∧ readOperand (at_ (atMax 3) 0 adds) (imm 0) = .ok (lit 0) ∧
    writeAddr (at_ (atMax 3) 0 adds) 3 (pos 5) = .ok 5 ∧ readOperand (at_ (atMax 2) 0 adds) (imm 0) = .ok (lit 0) ∧
    readOperand (at_ (atMax 2) 0 adds) (imm 1) = .ok (lit 1) ∧
    writeAddr (at_ (atMax 1) 0 (writePort [lit 1] adds)) 1 (pos 5) = .ok 5 ∧ (writePort [lit 1] adds).inq ≠ [] ∧
    ((0 : Addr).val : Int) = (at_ (atMax 1) 0 adds).rb.val + (lit 0).val :=
  ⟨by decide, by decide, by decide, rfl, rfl, rfl, rfl, rfl, by decide, by decide⟩

theorem witness_FaultsArePrecise : ∃ t, step faults = .next t ∧ t.status = .faulted := ⟨_, faults_steps⟩

/-- A faulting step for each of the five kinds (D-7, M-9, M-5, A-5, M-3). -/
theorem witness_FaultKindsHaveTheirCodesAndCauses :
    (∃ t, step faults = .next t ∧ t.status = .faulted) ∧
    ([load [0] [], load [11101, 1, 1, 5, 99] [], faults, load [1101, Config.wordMax, 1, 5, 99] [],
        load8 [1101, 1, 1, 10, 99] []].map fun s => (nextOf (step s)).map fun t => (t.status, t.fault.kind)) =
      [.invalidOpcode, .invalidWriteTarget, .invalidAddress, .arithmeticOverflow, .capacityExceeded].map
        fun k => some (.faulted, k) :=
  ⟨⟨_, faults_steps⟩, by decide⟩

theorem witness_FaultedInstanceRefusesForEver :
    (after faults).status = .faulted ∧
    Conversation (after faults) [(.step, .refused), (.readStatus, .status .faulted (some (after faults).fault))] (after faults) :=
  ⟨faults_steps.2, .cons (t := after faults) ⟨0, by decide⟩ (.cons ⟨0, by decide⟩ (.nil _))⟩

/-! ### Suspension, halting, the whole machine -/

theorem witness_OnlyAStarvedInBlocks :
    (blocks.status ≠ .faulted ∧ fetch blocks = .ok (.inp (pos 5)) ∧ writeAddr blocks 1 (pos 5) = .ok 5 ∧ blocks.inq = []) ∧
    ∃ t, step blocks = .next t ∧ t.status = .blocked :=
  ⟨⟨by decide, rfl, rfl, by decide⟩, _, blocks_steps⟩

theorem witness_BlockedStepResumes : ∃ t, step blocks = .next t ∧ t.status = .blocked := ⟨_, blocks_steps⟩

theorem witness_HaltingIsStable : ∃ t u, step halts = .next t ∧ t.status = .halted ∧
    Conversation t [(.writePort [lit 9], .acknowledged), (.step, .result .halted)] u :=
  ⟨_, writePort [lit 9] (after halts), halts_steps.1, halts_steps.2,
    .cons (t := writePort [lit 9] (after halts)) ⟨0, by decide⟩ (.cons ⟨0, by decide⟩ (.nil _))⟩

theorem witness_StepAlwaysAnswers : (after faults).status = .faulted ∧ adds.status ≠ .faulted := by decide

theorem witness_RecordedResultAndOldFaultDoNotMatter : adds.status ≠ .faulted ∧ Status.halted ≠ .faulted ∧
    (∃ t, step adds = .next t) ∧ ∃ t, step faults = .next t ∧ t.status = .faulted :=
  ⟨by decide, by decide, ⟨_, adds_steps.1⟩, _, faults_steps⟩

theorem witness_RelativeBaseIsWrittenOnlyByArb :
    (maxAddr.val : Int) = (at_ 0 maxAddr adds).rb.val + (lit 0).val ∧
    (∃ t, nextOf (step (load [109, 5, 99] [])) = some t ∧ t.rb ≠ (load [109, 5, 99] []).rb) ∧
    Responds .peekRegs adds (.regs 0 0) adds ∧ Command.peekRegs ≠ .step ∧ Command.peekRegs ≠ .run :=
  ⟨by decide, ⟨after (load [109, 5, 99] []), by decide, by decide⟩, ⟨0, by decide⟩, by decide, by decide⟩

theorem witness_QueuesAreTouchedOnlyByInAndOut :
    (∃ t, nextOf (step (load [3, 1, 99] [7, 8])) = some t ∧ t.inq ≠ (load [3, 1, 99] [7, 8]).inq) ∧
    (∃ t, nextOf (step (load [104, 5, 99] [])) = some t ∧ t.outq ≠ (load [104, 5, 99] []).outq) ∧
    (∃ t, nextOf (exec (.inp (pos 1)) (load [3, 1, 99] [7, 8])) = some t ∧ t.status = .ready) ∧
    (∃ t, nextOf (exec (.out (imm 5)) adds) = some t ∧ t.status = .ready) :=
  ⟨⟨after (load [3, 1, 99] [7, 8]), by decide, by decide⟩, ⟨after (load [104, 5, 99] []), by decide, by decide⟩,
    ⟨after (load [3, 1, 99] [7, 8]), by decide, by decide⟩, ⟨_, rfl, rfl⟩⟩

/-! ### The host's commands -/

theorem witness_HostCommandsExecuteNothing :
    Responds (.writePort [lit 1]) adds .acknowledged (writePort [lit 1] adds) ∧
    Responds (.peek 0) adds (.word (lit 1)) adds ∧ Command.peek 0 ≠ .step ∧ Command.peek 0 ≠ .run ∧
    adds.status ≠ .faulted ∧ (after faults).status = .faulted :=
  ⟨⟨0, by decide⟩, ⟨0, by decide⟩, by decide, by decide, by decide, by decide⟩

theorem witness_WritePortAppendsInOrder : adds.status ≠ .faulted := by decide

/-- The state after P2's output. -/
def answered : State := { halts with outq := [lit 3, lit 2, lit 1] }

theorem witness_ReadPortPopsTheHead :
    (answered.status ≠ .faulted ∧ answered.outq = lit 3 :: [lit 2, lit 1]) ∧ adds.status ≠ .faulted ∧ adds.outq = [] := by decide

theorem witness_ReadExactIsAllOrNothing : answered.status ≠ .faulted ∧
    (answered.outq = [lit 3, lit 2, lit 1] ++ [] ∧ [lit 3, lit 2, lit 1].length = 3) ∧
    (answered.outq = [] ++ [lit 3, lit 2, lit 1] ∧ ([] : List Word).length = 0) ∧ answered.outq.length < 4 := by decide

theorem witness_ReadAllDrainsTheQueue : answered.status ≠ .faulted := by decide

theorem witness_RunStepsUntilAnotherResult : halts.status ≠ .faulted ∧ Responds .run halts (.result .halted) (after halts) ∧
    Reaches halts halts :=
  ⟨by decide, ⟨1, by decide⟩, .refl _⟩

theorem witness_RunResponseSaysHowTheProgramEnded :
    (halts.status ≠ .faulted ∧ StepsTo .halted halts (after halts)) ∧
    (blocks.status ≠ .faulted ∧ StepsTo .blocked blocks (after blocks)) ∧
    (faults.status ≠ .faulted ∧ StepsTo .faulted faults (after faults)) :=
  ⟨⟨by decide, _, .refl _, halts_steps⟩, ⟨by decide, _, .refl _, blocks_steps⟩, by decide, _, .refl _, faults_steps⟩

/-- `OUT #7; IN [6]; HLT`. -/
def outThenIn : List Word := [104, 7, 3, 6, 99].map lit

/-- Its states: after the first `RUN`, which blocks, and after the second, which halts. -/
def waiting : State := { initState Config.resetParams outThenIn with pc := 2, outq := [lit 7], status := .blocked }
def finished : State :=
  { initState Config.resetParams ([104, 7, 3, 6, 99, 0, 42].map lit) with pc := 4, status := .halted }

theorem waiting_session :
    Session Config.resetParams outThenIn [(.run, .result .blocked)] waiting [lit 7] :=
  .command .init ⟨2, by decide⟩

theorem fed_session : Session Config.resetParams outThenIn
    [(.run, .result .blocked), (.readPort, .port (some (lit 7))), (.writePort [lit 42], .acknowledged)]
    (writePort [lit 42] { waiting with outq := [] }) [lit 7] :=
  .command (.command (t := { waiting with outq := [] }) waiting_session ⟨0, by decide⟩) ⟨0, by decide⟩

/-- A halting step in the life of a program (D-5). -/
theorem witness_RunResponseSaysHowTheProgramEnded_halting_step :
    Session Config.resetParams [lit 99] [(.writePort [], .acknowledged)] halts [] ∧ Reaches halts halts ∧
    step halts = .next (after halts) ∧ (after halts).status = .halted ∧ EndsWell Config.resetParams [lit 99] (after halts) [] :=
  have h : Session Config.resetParams [lit 99] [(.writePort [], .acknowledged)] halts [] :=
    .command (t := halts) .init ⟨0, by decide⟩
  ⟨h, .refl _, halts_steps.1, halts_steps.2, _, .step, .command (t := after halts) (r := .result .halted) h ⟨0, by decide⟩⟩

/-- R124: a program that blocked, was fed and halted ends well; its output counts the Word that the host had read. -/
theorem test_program_ends_well_after_suspension :
    IsSuspended Config.resetParams outThenIn waiting [lit 7] ∧ EndsWell Config.resetParams outThenIn finished [lit 7] :=
  ⟨⟨[], .run, waiting_session⟩, _, .run, .command (t := finished) (r := .result .halted) fed_session ⟨2, by decide⟩⟩

/-- M-5 ends badly, with no output. -/
theorem test_program_ends_badly :
    EndsBadly Config.resetParams ([1, -1, 0, 0, 99].map lit) (after faults) [] :=
  ⟨_, .step, .command (r := .result (.fatal (after faults).fault)) .init ⟨0, by decide⟩⟩

/-- P5, and the same loop by a JZ. -/
theorem witness_SelfJumpMakesRunNeverRespond :
    (let s := load [1105, 1, 0] []
     s.status ≠ .faulted ∧ readOperand s (imm 1) = .ok (lit 1) ∧ readOperand s (imm 0) = .ok (lit 0) ∧
     (lit 0).val = s.pc.val ∧ fetch s = .ok (.jnz (imm 1) (imm 0)) ∧ (lit 1).val ≠ 0) ∧
    (let s := load [1106, 0, 0] []
     s.status ≠ .faulted ∧ readOperand s (imm 0) = .ok (lit 0) ∧ (lit 0).val = s.pc.val ∧
     fetch s = .ok (.jz (imm 0) (imm 0)) ∧ (lit 0).val = 0) :=
  ⟨⟨by decide, rfl, rfl, by decide, rfl, by decide⟩, by decide, rfl, by decide, rfl, by decide⟩

/-- IO-2, with its input in one chunk, and after an empty one. -/
def fed : State := { load [3, 5, 99, 0, 0, 42] [] with pc := 2, status := .halted }

theorem witness_InputChunkingDoesNotMatter : blocks.status ≠ .faulted ∧ ([[], [lit 42]] : List (List Word)) ≠ [] ∧
    [[lit 42]].flatten = [[], [lit 42]].flatten ∧ Feeds blocks [[lit 42]] fed ∧ fed.status = .halted ∧
    Feeds blocks [[], [lit 42]] fed :=
  ⟨by decide, by decide, by decide, .last (r := .halted) (fuel := 2) (by decide), by decide,
    .more (t := after blocks) (r := .blocked) (fuel := 1) (by decide) (by decide)
      (.last (r := .halted) (fuel := 2) (by decide))⟩

/-- Two instances under one host. -/
def two : System := ⟨Config.resetParams, [some adds, some blocks]⟩

theorem witness_InstancesAreIsolated :
    (∃ r sys', two.act 0 (.command 0 .step) = some (r, sys')) ∧ two.slot? 1 = some blocks ∧
    (∀ c, HostAction.command 0 .step ≠ .command 1 c) ∧ HostAction.command 0 .step ≠ .drop 1 :=
  ⟨⟨_, _, rfl⟩, by decide, by simp, by decide⟩

/-- A clone of instance 0, which is instance 2, and then one command to each of the two. -/
theorem witness_CloneIsAValueDisjointCopy : two.slot? 0 = some adds ∧ adds.status ≠ .faulted ∧
    (∃ sys'', System.Runs (two.addInstance (cloneState adds)) [.command 2 .step] sys'') ∧
    ∃ sys'', System.Runs (two.addInstance (cloneState adds)) [.command 0 .step] sys'' :=
  ⟨by decide, by decide, ⟨_, .cons (fuel := 0) rfl (.nil _)⟩, ⟨_, .cons (fuel := 0) rfl (.nil _)⟩⟩

/-! ### The invariant -/

theorem adds_inv : adds.Inv := ⟨by decide, trivial⟩

theorem witness_StepKeepsTheInvariant : adds.Inv ∧ ∃ t, step adds = .next t := ⟨adds_inv, _, adds_steps.1⟩

theorem witness_HostCommandsKeepTheInvariant : adds.Inv ∧ ∃ u t, Responds .clone adds (.created u) t :=
  ⟨adds_inv, cloneState adds, adds, 0, by decide⟩

end Sys2Proof.Tests
end

/-! PROOFS. Shared lemmas of the family "state": what a step leaves when it faults, and why it faults (R126 to R134). -/

namespace Sys2Proof.Machine
open Sys2Proof.Statements

/-! ## Which conditions operand resolution raises -/

theorem fetch_eq_decode_wordsAtPc (s : State) : fetch s = decode (wordsAtPc s) := fetch_eq_decode s

/-- A read parameter is refused exactly for a bad address (R54, R129). -/
theorem readAddr_eq_error {s : State} {p : Param} {f : Fatal} :
    readAddr s p = .error f ↔ ∃ z, BadAddress s p z ∧ f = .invalidAddress z := by
  obtain ⟨mode, word⟩ := p
  cases mode <;> simp [readAddr, BadAddress, exactAddress, except_map_eq_error, toAddr_eq_error]

/-- A write parameter is refused exactly for its mode or for a bad address (R55, R128, R129). -/
theorem writeAddr_eq_error {s : State} {k : Nat} {p : Param} {f : Fatal} :
    writeAddr s k p = .error f ↔
      (p.mode = .immediate ∧ f = .invalidWriteTarget k) ∨ ∃ z, BadAddress s p z ∧ f = .invalidAddress z := by
  obtain ⟨mode, word⟩ := p
  cases mode with
  | immediate => simp [writeAddr, BadAddress, exactAddress, eq_comm]
  | position | relative => simp [writeAddr, BadAddress, exactAddress, toAddr_eq_error]

/-! ## From a raised condition to its cause in the table of R126 -/

section
variable {s : State} {i : Instr} {f : Fatal} (hi : decode (wordsAtPc s) = .ok i)
include hi

theorem hasCause_of_immediateTarget {k : Nat} {d : Param} (hw : writeParam? i = some (k, d)) (hd : d.mode = .immediate) :
    HasCause s (Fatal.invalidWriteTarget k).detail (Fatal.invalidWriteTarget k).kind :=
  ⟨i, k, d, hi, hw, hd, rfl⟩

theorem hasCause_of_readAddr {p : Param} (hp : p ∈ paramsOf i) (h : readAddr s p = .error f) :
    HasCause s f.detail f.kind := by
  obtain ⟨z, hz, rfl⟩ := readAddr_eq_error.mp h
  exact ⟨i, hi, .inl ⟨p, hp, hz⟩⟩

theorem hasCause_of_writeAddr {k : Nat} {d : Param} (hw : writeParam? i = some (k, d)) (hp : d ∈ paramsOf i)
    (h : writeAddr s k d = .error f) : HasCause s f.detail f.kind := by
  obtain ⟨hd, rfl⟩ | ⟨z, hz, rfl⟩ := writeAddr_eq_error.mp h
  · exact hasCause_of_immediateTarget hi hw hd
  · exact ⟨i, hi, .inl ⟨d, hp, hz⟩⟩

/-- The last two checks (R107 step 8): the new `pc` of an instruction that goes on to the next one, and the capacity. -/
theorem hasCause_of_complete {e : Effects} (h : complete e s = .error f) (hne : i ≠ .hlt)
    (hpc : e.pcNext ≤ Config.addrMax ∨ e.pcNext = s.pc.val + i.width)
    (hw : ∀ a v, e.write = some (a, v) → ∃ k d, writeParam? i = some (k, d) ∧ writeAddr s k d = .ok a) :
    HasCause s f.detail f.kind := by
  obtain ⟨hlt, rfl⟩ | ⟨-, a, v, he, hcap, rfl⟩ := complete_eq_error.mp h
  · have hnext : e.pcNext = s.pc.val + i.width := hpc.resolve_left (by omega)
    refine ⟨i, hi, .inr (.inr (.inr ⟨hne, ?_, ?_⟩))⟩
    · simp [Fatal.detail, hnext]
    · exact Int.ofNat_lt.mpr hlt
  · obtain ⟨k, d, hk, hd⟩ := hw a v he
    exact ⟨i, k, d, a, hi, hk, hd, rfl, hcap⟩

/-- The operands of ADD, MUL, LT and EQ. -/
theorem hasCause_of_operandsF3 {a b d : Param} (hp : paramsOf i = [a, b, d]) (hw : writeParam? i = some (3, d))
    (h : operandsF3 s a b d = .error f) : HasCause s f.detail f.kind := by
  obtain ⟨hd, rfl⟩ | ⟨-, ha | ⟨-, hb | ⟨-, hd⟩⟩⟩ := operandsF3_eq_error.mp h
  · exact hasCause_of_immediateTarget hi hw hd
  · exact hasCause_of_readAddr hi (by simp [hp]) ha
  · exact hasCause_of_readAddr hi (by simp [hp]) hb
  · exact hasCause_of_writeAddr hi hw (by simp [hp]) hd

/-- The end of ADD, MUL, LT and EQ. -/
theorem hasCause_of_completeF3 {a b d : Param} {x y r : Word} {dst : Addr} (hw : writeParam? i = some (3, d))
    (hn : i.width = 4) (ho : operandsF3 s a b d = .ok (x, y, dst))
    (h : complete { advance 4 s with write := some (dst, r) } s = .error f) : HasCause s f.detail f.kind := by
  obtain ⟨-, -, hdst⟩ := operandsF3_eq_ok.mp ho
  refine hasCause_of_complete hi h ?_ (.inr (by simp [hn])) ?_
  · rintro rfl
    cases hw
  · rintro a' v' ⟨⟩
    exact ⟨3, d, hw, hdst⟩

/-- JNZ and JZ, taken or not: a taken jump's target is a Word, so that it is no address above `ADDR_MAX`. -/
theorem hasCause_of_jump {a p : Param} {taken : Word → Bool} (hmem : i ∈ [Instr.jnz a p, Instr.jz a p])
    (h : operandsF2 s a p = .error f ∨ ∃ x y, operandsF2 s a p = .ok (x, y) ∧
      (jumpTarget y = .error f ∨ ∃ n, jumpTarget y = .ok n ∧
        complete (if taken x then { advance 3 s with pcNext := n } else advance 3 s) s = .error f)) :
    HasCause s f.detail f.kind := by
  have hp : paramsOf i = [a, p] ∧ i.width = 3 ∧ i ≠ .hlt := by
    simp only [List.mem_cons, List.not_mem_nil, or_false] at hmem
    obtain rfl | rfl := hmem <;> exact ⟨rfl, rfl, nofun⟩
  obtain ⟨hp, hn, hne⟩ := hp
  obtain h | ⟨x, y, ho, h | ⟨n, hy, h⟩⟩ := h
  · obtain ha | ⟨-, hb⟩ := operandsF2_eq_error.mp h
    · exact hasCause_of_readAddr hi (by simp [hp]) ha
    · exact hasCause_of_readAddr hi (by simp [hp]) hb
  · obtain ⟨hneg, rfl⟩ := jumpTarget_eq_error.mp h
    exact ⟨i, hi, .inr (.inl ⟨a, p, y, hmem, (operandsF2_eq_ok.mp ho).2, rfl, hneg⟩)⟩
  · have hle : n ≤ Config.addrMax := by
      have := jumpTarget_eq_ok.mp hy
      have := y.isLe
      have := addrMax_cast
      simp only [Config.wordMax] at *
      omega
    split at h
    · exact hasCause_of_complete hi h hne (.inl hle) (by simp)
    · exact hasCause_of_complete hi h hne (.inr (by simp [hn])) (by simp)

/-- Whatever the instruction at `pc` raises has the cause and the detail that the table of R126 gives its kind. -/
theorem Raises.hasCause (h : Raises i s f) : HasCause s f.detail f.kind := by
  cases i with
  | add a b d =>
    obtain h | ⟨x, y, dst, ho, h | ⟨r, h⟩⟩ := h
    · exact hasCause_of_operandsF3 hi rfl rfl h
    · obtain ⟨hz, rfl⟩ := toWord_eq_error.mp h
      obtain ⟨hx, hy, -⟩ := operandsF3_eq_ok.mp ho
      exact ⟨a, b, d, x, y, hx, hy, .inl ⟨hi, rfl⟩, hz⟩
    · exact hasCause_of_completeF3 hi rfl rfl ho h
  | mul a b d =>
    obtain h | ⟨x, y, dst, ho, h | ⟨r, h⟩⟩ := h
    · exact hasCause_of_operandsF3 hi rfl rfl h
    · obtain ⟨hz, rfl⟩ := toWord_eq_error.mp h
      obtain ⟨hx, hy, -⟩ := operandsF3_eq_ok.mp ho
      exact ⟨a, b, d, x, y, hx, hy, .inr ⟨hi, rfl⟩, hz⟩
    · exact hasCause_of_completeF3 hi rfl rfl ho h
  | lt a b d | eq a b d =>
    obtain h | ⟨x, y, dst, ho, r, h⟩ := h
    · exact hasCause_of_operandsF3 hi rfl rfl h
    · exact hasCause_of_completeF3 hi rfl rfl ho h
  | inp d =>
    obtain h | ⟨dst, v, q, ho, -, h⟩ := h
    · obtain ⟨hd, rfl⟩ | ⟨-, h⟩ := operandF1W_eq_error.mp h
      · exact hasCause_of_immediateTarget hi rfl hd
      · exact hasCause_of_writeAddr hi rfl (by simp [paramsOf]) h
    · refine hasCause_of_complete hi h nofun (.inr rfl) ?_
      rintro a' v' ⟨⟩
      exact ⟨1, d, rfl, operandF1W_eq_ok.mp ho⟩
  | out a =>
    obtain h | ⟨x, -, h⟩ := h
    · exact hasCause_of_readAddr hi (by simp [paramsOf]) (readOperand_eq_error.mp h)
    · exact hasCause_of_complete hi h nofun (.inr rfl) (by simp)
  | jnz a p => exact hasCause_of_jump hi (by simp) h
  | jz a p => exact hasCause_of_jump hi (by simp) h
  | arb a =>
    obtain h | ⟨x, ho, h | ⟨r, h⟩⟩ := h
    · exact hasCause_of_readAddr hi (by simp [paramsOf]) (readOperand_eq_error.mp h)
    · obtain ⟨hz, rfl⟩ := aluAadd_eq_error.mp h
      exact ⟨_, hi, .inr (.inr (.inl ⟨a, x, rfl, ho, rfl, hz⟩))⟩
    · exact hasCause_of_complete hi h nofun (.inr rfl) (by simp)
  | hlt => exact h.elim

end

/-- Every faulting step is the entry of a condition (R134), and the condition has its cause (R126). -/
theorem step_faulted {s t : State} (h : step s = .next t) (ht : t.status = .faulted) :
    ∃ f, t = faultEntry f s ∧ HasCause s f.detail f.kind := by
  obtain ⟨-, ⟨e, he, rfl⟩ | ⟨i, hi, h⟩⟩ := step_cases h
  · exact ⟨_, rfl, ⟨e, fetch_eq_decode_wordsAtPc s ▸ he⟩, rfl⟩
  · obtain ⟨f, rfl, hf⟩ := exec_raises h ht
    exact ⟨f, rfl, hf.hasCause (fetch_eq_decode_wordsAtPc s ▸ hi)⟩

/-! ## The invariant -/

/-- A step writes memory only by a commit, so that it keeps the canonical form. -/
theorem step_mem_wf {s t : State} (hs : s.mem.wf = true) (h : step s = .next t) : t.mem.wf = true := by
  obtain ⟨-, ⟨e, -, rfl⟩ | ⟨i, -, h⟩⟩ := step_cases h
  · exact hs
  · obtain ⟨f, rfl⟩ | ⟨d, -, -, rfl⟩ | ⟨-, rfl⟩ | ⟨e, -, hc⟩ := exec_cases h
    · exact hs
    · exact hs
    · exact hs
    · obtain ⟨pc', -, -, rfl⟩ := complete_eq_ok.mp hc
      exact writeBack_wf hs e.write

/-- Fault entry records the instruction at `pc`; that its cause holds rules out the kind that nothing raises, and gives
`InvalidOpcode` its detail. -/
theorem faultEntry_recordMatches {s : State} {f : Fatal} (h : HasCause s f.detail f.kind) :
    (faultEntry f s).recordMatches := by
  refine ⟨rfl, rfl, ?_, ?_⟩
  · cases f <;> nofun
  · intro hk
    replace hk : f.kind = .invalidOpcode := hk
    rw [hk] at h
    exact h.2

/-- After any step `STATUS` agrees with the instruction at `pc`, which a step that blocks, halts or faults has not left. -/
theorem step_statusAgrees {s t : State} (h : step s = .next t) : t.statusAgrees := by
  unfold State.statusAgrees
  split
  · trivial
  · next ht =>
    obtain ⟨-, ⟨e, -, rfl⟩ | ⟨i, hi, h⟩⟩ := step_cases h
    · cases ht
    · obtain ⟨d, dst, rfl, -, -, rfl⟩ := exec_blocks h ht
      exact ⟨d, hi⟩
  · next ht =>
    obtain ⟨-, ⟨e, -, rfl⟩ | ⟨i, hi, h⟩⟩ := step_cases h
    · cases ht
    · obtain ⟨f, rfl⟩ | ⟨d, -, -, rfl⟩ | ⟨rfl, rfl⟩ | ⟨e, -, hc⟩ := exec_cases h
      · cases ht
      · cases ht
      · exact hi
      · rw [complete_status hc] at ht
        cases ht
  · next ht =>
    obtain ⟨f, rfl, hf⟩ := step_faulted h ht
    exact faultEntry_recordMatches hf

theorem State.Inv.step {s t : State} (hs : s.Inv) (h : step s = .next t) : t.Inv :=
  ⟨step_mem_wf hs.1 h, step_statusAgrees h⟩

/-- The invariant speaks of memory, `pc`, `STATUS` and `FAULT` only. -/
theorem State.Inv.with_queues {s : State} (hs : s.Inv) (inq outq : List Word) :
    State.Inv { s with inq := inq, outq := outq } := hs

theorem initState_inv (params : Config.Params) (program : List Word) : (initState params program).Inv :=
  ⟨Memory.wf_ofList program, trivial⟩

/-- Without a fault the invariant does not read `FAULT`. -/
theorem cloneState_inv {s : State} (hs : s.Inv) (hne : s.status ≠ .faulted) : (cloneState s).Inv := by
  obtain ⟨hm, hs⟩ := hs
  refine ⟨hm, ?_⟩
  unfold State.statusAgrees at hs ⊢
  rw [cloneState_status]
  cases hst : s.status with
  | faulted => exact absurd hst hne
  | ready | blocked | halted =>
    rw [hst] at hs
    exact hs

/-! ## What the host's commands do to the state they name -/

/-- A command other than `STEP` and `RUN` changes at most the queues (R107, R112 to R117, R135). -/
theorem Responds.queues_only {c : Command} {s t : State} {r : Response} (h : Responds c s r t) (h₁ : c ≠ .step)
    (h₂ : c ≠ .run) : ∃ inq outq, t = { s with inq := inq, outq := outq } := by
  obtain ⟨fuel, h⟩ := h
  by_cases hs : s.status = .faulted
  · simp only [transact_of_faulted hs, Option.some.injEq] at h
    exact ⟨s.inq, s.outq, by rw [← performFaulted_state c s, h]⟩
  · rw [transact_of_ne_faulted hs] at h
    cases c with
    | step => exact absurd rfl h₁
    | run => exact absurd rfl h₂
    | readPort =>
      cases h
      exact ⟨_, _, readPort_state s⟩
    | readExact n =>
      cases h
      obtain ⟨q, hq⟩ := readExact_state n s
      exact ⟨_, q, hq⟩
    | writePort | readAll | clone | readStatus | peek | peekLen | peekRegs =>
      cases h
      exact ⟨_, _, rfl⟩

section
variable {P : State → Prop} (hstep : ∀ s t, P s → step s = .next t → P t)
include hstep

/-- What every step keeps, the command `STEP` keeps. -/
theorem stepCommand_keeps {s : State} (hs : P s) : P (stepCommand s).2 := by
  unfold stepCommand
  split
  · next t ht => exact hstep s t hs ht
  · exact hs
  · exact hs

/-- What every step keeps, the command `RUN` keeps. -/
theorem runCommand_keeps {fuel : Nat} {s t : State} {r : StepResult} (hs : P s) (h : runCommand fuel s = some (r, t)) :
    P t := by
  induction fuel generalizing s with
  | zero => cases h
  | succ fuel ih =>
    have hu := stepCommand_keeps hstep hs
    rcases e : stepCommand s with ⟨r', u⟩
    rw [runCommand, e] at h
    rw [e] at hu
    cases r' with
    | continued => exact ih hu h
    | blocked | halted | fatal | refused =>
      cases h
      exact hu

/-- What every step keeps, whatever the queues hold, every command keeps. -/
theorem Responds.keeps (hq : ∀ s inq outq, P s → P { s with inq := inq, outq := outq }) {c : Command} {s t : State}
    {r : Response} (hs : P s) (h : Responds c s r t) : P t := by
  by_cases hc : c = .step ∨ c = .run
  · obtain ⟨fuel, h⟩ := h
    by_cases hf : s.status = .faulted
    · simp only [transact_of_faulted hf, Option.some.injEq] at h
      obtain rfl : s = t := by rw [← performFaulted_state c s, h]
      exact hs
    · rw [transact_of_ne_faulted hf] at h
      obtain rfl | rfl := hc
      · cases h
        exact stepCommand_keeps hstep hs
      · obtain ⟨⟨r', u⟩, hu, he⟩ := Option.map_eq_some_iff.mp h
        cases he
        exact runCommand_keeps hstep hs hu
  · obtain ⟨inq, outq, rfl⟩ := h.queues_only (fun e => hc (.inl e)) (fun e => hc (.inr e))
    exact hq s inq outq hs

end

theorem resultResponse_ne_created (r : StepResult) (u : State) : resultResponse r ≠ .created u := by
  cases r <;> nofun

/-- Only `CLONE`, and only before a fault, answers `created`, with the clone (R116, R135). -/
theorem Responds.eq_cloneState {c : Command} {s t u : State} (h : Responds c s (.created u) t) :
    s.status ≠ .faulted ∧ u = cloneState s := by
  obtain ⟨fuel, h⟩ := h
  by_cases hs : s.status = .faulted
  · rw [transact_of_faulted hs] at h
    cases c <;> cases h
  · refine ⟨hs, ?_⟩
    rw [transact_of_ne_faulted hs] at h
    cases c with
    | clone =>
      cases h
      rfl
    | step =>
      simp only [perform, Option.some.injEq, Prod.mk.injEq] at h
      exact absurd h.1 (resultResponse_ne_created _ u)
    | run =>
      obtain ⟨r, -, he⟩ := Option.map_eq_some_iff.mp h
      exact absurd (congrArg Prod.fst he) (resultResponse_ne_created _ u)
    | writePort | readPort | readExact | readAll | readStatus | peek | peekLen | peekRegs => cases h

/-! ## Neither the recorded result nor an unreadable `FAULT` is read -/

/-- The state with another recorded result and another `FAULT`. -/
def State.withRecord (s : State) (st : Status) (f : FaultRecord) : State := { s with status := st, fault := f }

/-- The state with another `FAULT` while that is unreadable (R27). -/
def State.carryFault (f : FaultRecord) (t : State) : State := if t.status = .faulted then t else { t with fault := f }

/-- A change of the next state of an outcome. -/
def mapNext (g : State → State) : Host.Outcome State Fault Refusal → Host.Outcome State Fault Refusal
  | .next t => .next (g t)
  | .fault r => .fault r
  | .refused r => .refused r

theorem State.carryFault_eq (f : FaultRecord) (t : State) :
    t.carryFault f = { t with fault := (t.carryFault f).fault } := by
  unfold State.carryFault
  split <;> rfl

theorem State.carryFault_fault_of_faulted {t : State} (h : t.status = .faulted) (f : FaultRecord) :
    (t.carryFault f).fault = t.fault := by simp [State.carryFault, h]

theorem State.carryFault_fault_of_ne {t : State} (h : t.status ≠ .faulted) (f : FaultRecord) :
    (t.carryFault f).fault = f := by simp [State.carryFault, h]

theorem except_map_bind {ε α β γ : Type} (x : Except ε α) (g : α → Except ε β) (h : β → γ) :
    (x >>= g).map h = x >>= fun a => (g a).map h := by
  cases x <;> rfl

section
variable (s : State) (st : Status) (f : FaultRecord)

/-- Fault entry overwrites both (R134). -/
theorem conclude_withRecord (x : Except Fatal State) :
    conclude (s.withRecord st f) (x.map (State.carryFault f)) = mapNext (State.carryFault f) (conclude s x) := by
  cases x <;> rfl

/-- The commit overwrites `STATUS` and carries `FAULT` along (R107 step 9). -/
theorem complete_withRecord (e : Effects) :
    complete e (s.withRecord st f) = (complete e s).map (State.carryFault f) := by
  unfold complete
  split
  · rfl
  · rw [except_map_bind]
    rfl

theorem execF3_withRecord (g : Word → Word → Except Fatal Word) (a b d : Param) :
    execF3 g a b d (s.withRecord st f) = mapNext (State.carryFault f) (execF3 g a b d s) := by
  simp only [execF3, ← conclude_withRecord s st, except_map_bind, ← complete_withRecord s st]
  rfl

theorem execJump_withRecord (taken : Word → Bool) (a p : Param) :
    execJump taken a p (s.withRecord st f) = mapNext (State.carryFault f) (execJump taken a p s) := by
  simp only [execJump, ← conclude_withRecord s st, except_map_bind, ← complete_withRecord s st]
  rfl

theorem execIn_withRecord (d : Param) :
    execIn d (s.withRecord st f) = mapNext (State.carryFault f) (execIn d s) := by
  unfold execIn
  have hinq : (s.withRecord st f).inq = s.inq := rfl
  rw [← conclude_withRecord s st, except_map_bind]
  cases hq : s.inq with
  | nil =>
    simp only [hinq, hq]
    rfl
  | cons v q =>
    simp only [hinq, hq, ← complete_withRecord s st]
    rfl

theorem execOut_withRecord (a : Param) :
    execOut a (s.withRecord st f) = mapNext (State.carryFault f) (execOut a s) := by
  simp only [execOut, ← conclude_withRecord s st, except_map_bind, ← complete_withRecord s st]
  rfl

theorem execArb_withRecord (a : Param) :
    execArb a (s.withRecord st f) = mapNext (State.carryFault f) (execArb a s) := by
  simp only [execArb, ← conclude_withRecord s st, except_map_bind, ← complete_withRecord s st]
  rfl

theorem exec_withRecord (i : Instr) :
    exec i (s.withRecord st f) = mapNext (State.carryFault f) (exec i s) := by
  cases i with
  | add | mul | lt | eq => simp only [exec_add, exec_mul, exec_lt, exec_eq, execF3_withRecord]
  | inp d => exact execIn_withRecord s st f d
  | out a => exact execOut_withRecord s st f a
  | jnz | jz => simp only [exec_jnz, exec_jz, execJump_withRecord]
  | arb a => exact execArb_withRecord s st f a
  | hlt => rfl

/-- A step reads of `STATUS` only whether it is `FAULTED`, and `FAULT` not at all. -/
theorem step_withRecord (hs : s.status ≠ .faulted) (hst : st ≠ .faulted) :
    step (s.withRecord st f) = mapNext (State.carryFault f) (step s) := by
  have hfetch : fetch (s.withRecord st f) = fetch s := rfl
  rw [step_of_ne_faulted hs, step_of_ne_faulted (s := s.withRecord st f) hst, hfetch]
  split
  · exact exec_withRecord s st f _
  · rfl

end

/-! ## What ADD, MUL, LT and EQ may touch -/

/-- The four instructions of format F3 are the family rule of R90 over an ALU operation. -/
theorem exec_eq_execF3 {i : Instr} {a b d : Param}
    (hi : i ∈ [Instr.add a b d, Instr.mul a b d, Instr.lt a b d, Instr.eq a b d]) (s : State) :
    ∃ g, exec i s = execF3 g a b d s := by
  simp only [List.mem_cons, List.not_mem_nil, or_false] at hi
  obtain rfl | rfl | rfl | rfl := hi
  · exact ⟨_, exec_add a b d s⟩
  · exact ⟨_, exec_mul a b d s⟩
  · exact ⟨_, exec_lt a b d s⟩
  · exact ⟨_, exec_eq a b d s⟩

/-- A completed F3 instruction wrote one Word, at the address of parameter 3, and moved `pc` (R90). -/
theorem execF3_eq_next {g : Word → Word → Except Fatal Word} {a b d : Param} {s t : State}
    (h : execF3 g a b d s = .next t) :
    (∃ f, t = faultEntry f s) ∨ ∃ dst r pc', writeAddr s 3 d = .ok dst ∧
      t = { s with mem := s.mem.write dst.val r, pc := pc', status := .ready } := by
  obtain h | ⟨x, y, dst, r, ho, -, hc⟩ := execF3_cases h
  · exact .inl h
  · obtain ⟨pc', -, -, rfl⟩ := complete_eq_ok.mp hc
    obtain ⟨-, -, hdst⟩ := operandsF3_eq_ok.mp ho
    exact .inr ⟨dst, r, pc', hdst, rfl⟩

/-! ## The relative base -/

/-- Among the instructions only ARB writes `rb` (R22, R104). -/
theorem step_rb_of_ne {s t : State} (h : step s = .next t) (hr : t.rb ≠ s.rb) : ∃ a, fetch s = .ok (.arb a) := by
  obtain ⟨-, ⟨e, -, rfl⟩ | ⟨i, hi, h⟩⟩ := step_cases h
  · exact absurd rfl hr
  · obtain ⟨f, rfl⟩ | ⟨d, -, -, rfl⟩ | ⟨-, rfl⟩ | ⟨e, he, hc⟩ := exec_cases h
    · exact absurd rfl hr
    · exact absurd rfl hr
    · exact absurd rfl hr
    · obtain ⟨pc', -, -, rfl⟩ := complete_eq_ok.mp hc
      obtain ⟨a, rfl⟩ := he.rbNext_of_ne hr
      exact ⟨a, hi⟩

theorem readOperand_relative {s : State} {p : Word} {a : Addr} (h : (a.val : Int) = s.rb.val + p.val) :
    readOperand s ⟨.relative, p⟩ = .ok (s.mem.read a.val) := by
  simp [readOperand, readAddr, toAddr_eq_ok.mpr h, operandValue]

theorem writeAddr_relative {s : State} {p : Word} {a : Addr} (h : (a.val : Int) = s.rb.val + p.val) (k : Nat) :
    writeAddr s k ⟨.relative, p⟩ = .ok a := toAddr_eq_ok.mpr h

/-! ## Instances (R62, R140) -/

theorem System.slot?_addInstance {sys : System} {j : Nat} {s : State} (h : sys.slot? j = some s) (t : State) :
    (sys.addInstance t).slot? j = some s := by
  have hlt : j < sys.slots.length := by
    by_contra hj
    simp [System.slot?, List.getElem?_eq_none (not_lt.mp hj)] at h
  simpa [System.slot?, System.addInstance, List.getElem?_append_left hlt] using h

theorem System.slot?_setInstance_of_ne (sys : System) {j k : Nat} (h : k ≠ j) (t : Option State) :
    (sys.setInstance k t).slot? j = sys.slot? j := by
  simp [System.slot?, System.setInstance, List.getElem?_set_ne h]

theorem System.slot?_withCreated {sys : System} {j : Nat} {s : State} (h : sys.slot? j = some s) (r : Response) :
    (sys.withCreated r).slot? j = some s := by
  cases r with
  | created t => exact System.slot?_addInstance h t
  | acknowledged | port | exact | all | result | status | word | length | regs | refused => exact h

/-! ## The program that `INIT` loads -/

/-- Setting the listed Words of a program, one by one, in an array of zeros behind `pre` spells the program out. -/
theorem Cells.foldl_set_ofList (pre ws : List Word) :
    (Cells.ofList pre.length ws).foldl (fun l c => l.set c.1 c.2) (pre ++ List.replicate ws.length Word.zero) =
      pre ++ ws := by
  induction ws generalizing pre with
  | nil => simp [Cells.ofList]
  | cons w ws ih =>
    have h := ih (pre ++ [w])
    simp only [List.length_append, List.length_singleton, List.append_assoc, List.singleton_append] at h
    unfold Cells.ofList
    split
    · next hw =>
      rw [List.length_cons, List.replicate_succ, ← hw]
      rwa [← hw] at h
    · rw [List.foldl_cons, List.length_cons, List.replicate_succ, List.set_append_right _ _ le_rfl, Nat.sub_self,
        List.set_cons_zero]
      exact h

/-- The memory `INIT` makes stands for the program (R45, R143). -/
theorem Memory.toList_ofList (ws : List Word) : (Memory.ofList ws).toList = ws := by
  simpa [Memory.toList, Memory.ofList] using Cells.foldl_set_ofList [] ws

end Sys2Proof.Machine

/-! PROOFS. The statements of the family "state". -/

namespace Sys2Proof.Proofs
open Sys2Proof.Machine Sys2Proof.Statements

/-- Settles O58: a step keeps canonical memory, and each of its endings makes `STATUS` agree. -/
theorem stepKeepsTheInvariant : Obligations.StepKeepsTheInvariant :=
  fun _ _ hs h => hs.step h

/-- Settles O26, from the two answers of the family rule: fault entry, or one Word written at parameter 3. -/
theorem arithmeticFrame : Obligations.ArithmeticFrame := by
  intro s t a b d i hwf hi h
  obtain ⟨g, hg⟩ := exec_eq_execF3 hi s
  obtain ⟨f, rfl⟩ | ⟨dst, r, pc', hdst, rfl⟩ := execF3_eq_next (hg ▸ h)
  · exact ⟨rfl, rfl, rfl, rfl, fun hne => absurd rfl hne, fun _ _ _ _ => rfl, fun _ => rfl⟩
  · refine ⟨rfl, rfl, rfl, rfl, fun _ => rfl, ?_, nofun⟩
    intro dst' hdst' x hx
    obtain rfl : dst = dst' := by simpa [hdst] using hdst'
    exact Memory.read_write_ne hwf r hx

/-- Settles O36: a step that faults is a fault entry. -/
theorem faultsArePrecise : Obligations.FaultsArePrecise := by
  intro s t h ht
  obtain ⟨f, rfl, -⟩ := step_faulted h ht
  exact ⟨rfl, rfl, rfl⟩

/-- Settles O37: a step that faults enters a condition that has its cause, and no condition is a malformed boundary. -/
theorem faultKindsHaveTheirCodesAndCauses : Obligations.FaultKindsHaveTheirCodesAndCauses := by
  refine ⟨rfl, rfl, ?_⟩
  intro s t h ht
  obtain ⟨f, rfl, hf⟩ := step_faulted h ht
  refine ⟨hf, ?_⟩
  cases f <;> simp [Fatal.kind, FatalKind.code]

/-- Settles O43: a step commutes with a change of the record while `FAULT` is unreadable. -/
theorem recordedResultAndOldFaultDoNotMatter : Obligations.RecordedResultAndOldFaultDoNotMatter := by
  intro s t st f hs hst h
  refine ⟨(t.carryFault f).fault, ?_, fun ht => State.carryFault_fault_of_faulted ht f,
    fun ht => State.carryFault_fault_of_ne ht f⟩
  have hstep := step_withRecord s st f hs hst
  rw [h] at hstep
  rw [← State.carryFault_eq]
  exact hstep

/-- Settles O44: the only effects with a new `rb` are those of ARB, and a command that does not step changes at most the queues. -/
theorem relativeBaseIsWrittenOnlyByArb : Obligations.RelativeBaseIsWrittenOnlyByArb := by
  refine ⟨fun s => Nat.lt_succ_iff.mp s.rb.isLt, fun s p a i ha => ⟨readOperand_relative ha, writeAddr_relative ha i⟩,
    fun s t => step_rb_of_ne, ?_, fun _ _ => rfl⟩
  intro c s r t h h₁ h₂
  obtain ⟨inq, outq, rfl⟩ := h.queues_only h₁ h₂
  rfl

/-- Settles O55, by the host's three actions: a creation takes a new slot, the others write the slot they name. -/
theorem instancesAreIsolated : Obligations.InstancesAreIsolated := by
  intro fuel sys sys' x r j s h hj hc hd
  cases x with
  | init program =>
    cases h
    exact System.slot?_addInstance hj _
  | command k c =>
    have hk : k ≠ j := by
      rintro rfl
      exact hc c rfl
    simp only [System.act] at h
    split at h
    · cases h
    · split at h
      · cases h
      · next r' t _ =>
        cases h
        exact System.slot?_withCreated ((System.slot?_setInstance_of_ne sys hk _).trans hj) r'
  | drop k =>
    have hk : k ≠ j := by
      rintro rfl
      exact hd rfl
    simp only [System.act] at h
    split at h
    · cases h
    · cases h
      exact (System.slot?_setInstance_of_ne sys hk _).trans hj

/-- Settles O57, by what the loaded cells read and spell out; the empty program's first step is computed. -/
theorem initLoadsTheProgram : Obligations.InitLoadsTheProgram :=
  ⟨fun _ program a => ⟨Memory.read_ofList program a, Memory.toList_ofList program, rfl, rfl, rfl, rfl, rfl, rfl, rfl⟩,
    fun _ => rfl, reset_eq_init⟩

/-- Settles O59: what every step keeps and no queue affects, every command keeps. -/
theorem hostCommandsKeepTheInvariant : Obligations.HostCommandsKeepTheInvariant := by
  refine ⟨fun c s r t hs h => ⟨?_, ?_⟩, initState_inv⟩
  · exact h.keeps (fun _ _ => State.Inv.step) (fun _ inq outq hu => hu.with_queues inq outq) hs
  · rintro u rfl
    obtain ⟨hne, rfl⟩ := h.eq_cloneState
    exact cloneState_inv hs hne

/-- Settles O60: the reset state is one that `INIT` makes. -/
theorem resetHasTheInvariant : Obligations.ResetHasTheInvariant :=
  initState_inv Config.resetParams []

end Sys2Proof.Proofs

/-! PROOFS. Shared lemmas of the family "memory": the array a memory stands for (R45 to R48), the addresses of parameters
(R54, R55), the one write of a completed instruction, and what the observations of the host answer (R117). -/

namespace Sys2Proof.Machine
open Sys2Proof.Statements

/-! ## The array of a canonical memory (R45) -/

/-- Setting the listed Words of a canonical cell list, one by one, in an array long enough for them. -/
theorem Cells.getD_foldl_set {hi lo : Nat} {cs : List (Nat × Word)} (h : Cells.wf hi lo cs = true) {ws : List Word}
    (hlen : hi ≤ ws.length) (a : Nat) :
    (cs.foldl (fun l c => l.set c.1 c.2) ws).getD a Word.zero =
      if Cells.get cs a = Word.zero then ws.getD a Word.zero else Cells.get cs a := by
  induction cs generalizing lo ws with
  | nil => simp
  | cons c cs ih =>
    obtain ⟨b, w⟩ := c
    obtain ⟨-, hb, hw, hcs⟩ := (Cells.wf_cons ..).mp h
    rw [List.foldl_cons, ih hcs (by simpa using hlen), Cells.get_cons]
    by_cases hab : a = b
    · subst hab
      have hlt : a < ws.length := by omega
      simp [Cells.get_of_lt hcs (Nat.lt_succ_self a), hw, List.getD, hlt]
    · simp [hab, List.getD, List.getElem?_set_ne (Ne.symm hab)]

theorem Cells.length_foldl_set (cs : List (Nat × Word)) (ws : List Word) :
    (cs.foldl (fun l c => l.set c.1 c.2) ws).length = ws.length := by
  induction cs generalizing ws with
  | nil => rfl
  | cons c cs ih => rw [List.foldl_cons, ih, List.length_set]

@[simp] theorem Memory.length_toList (m : Memory) : m.toList.length = m.len :=
  (Cells.length_foldl_set ..).trans List.length_replicate

theorem list_getD_append_replicate {α : Type} (l : List α) (n : Nat) (d : α) (a : Nat) :
    (l ++ List.replicate n d).getD a d = l.getD a d := by
  rcases Nat.lt_or_ge a l.length with ha | ha
  · exact List.getD_append l _ d a ha
  · rw [List.getD_append_right _ _ _ _ ha, List.getD_eq_default _ _ ha, List.getD_eq_getElem?_getD,
      List.getElem?_getD_replicate_default_eq]

/-- Element `a` of the array, 0 beyond its end, is what a read at `a` answers (R46). -/
theorem Memory.getD_toList {m : Memory} (h : m.wf = true) (a : Nat) : m.toList.getD a Word.zero = m.read a := by
  rw [Memory.read_eq_get h, Memory.toList, Cells.getD_foldl_set h (by simp)]
  split
  · next hz => rw [hz, List.getD_eq_getElem?_getD, List.getElem?_getD_replicate_default_eq]
  · rfl

/-- A write grows the array with zeros up to the address and replaces the one Word there (R47). -/
theorem Memory.toList_write {m : Memory} (h : m.wf = true) (a : Nat) (v : Word) :
    (m.write a v).toList = (m.toList ++ List.replicate (a + 1 - m.len) Word.zero).set a v := by
  refine List.ext_getElem ?_ fun b hb hb' => ?_
  · simp
    omega
  · rw [← List.getD_eq_getElem _ Word.zero hb, Memory.getD_toList (Memory.wf_write h a v), Memory.read_write h,
      List.getElem_set, ← List.getD_eq_getElem _ Word.zero, list_getD_append_replicate, Memory.getD_toList h]
    simp only [eq_comm]

/-! ## Canonical cell lists are determined by what they list -/

theorem Cells.get_head (a : Nat) (v : Word) (cs : List (Nat × Word)) : Cells.get ((a, v) :: cs) a = v := by
  simp [Cells.get_cons]

/-- A canonical list lists nothing below its first address, so that a list that agrees with it begins no earlier. -/
theorem Cells.head_le_of_get_eq {hi hi' lo lo' a b : Nat} {v w : Word} {cs cs' : List (Nat × Word)}
    (h : Cells.wf hi lo ((a, v) :: cs) = true) (h' : Cells.wf hi' lo' ((b, w) :: cs') = true)
    (hget : Cells.get ((a, v) :: cs) a = Cells.get ((b, w) :: cs') a) : b ≤ a := by
  obtain ⟨-, -, hv, -⟩ := (Cells.wf_cons ..).mp h
  obtain ⟨-, hb, hw, hcs'⟩ := (Cells.wf_cons ..).mp h'
  have hfrom : Cells.wf hi' b ((b, w) :: cs') = true := (Cells.wf_cons ..).mpr ⟨le_rfl, hb, hw, hcs'⟩
  by_contra hlt
  rw [Cells.get_head, Cells.get_of_lt hfrom (by omega)] at hget
  exact hv hget

theorem Cells.eq_nil_of_get_eq_zero {hi lo : Nat} {cs : List (Nat × Word)} (h : Cells.wf hi lo cs = true)
    (hget : ∀ a, Cells.get cs a = Word.zero) : cs = [] := by
  cases cs with
  | nil => rfl
  | cons c cs =>
    obtain ⟨a, v⟩ := c
    obtain ⟨-, -, hv, -⟩ := (Cells.wf_cons ..).mp h
    exact absurd ((Cells.get_head a v cs).symm.trans (hget a)) hv

theorem Cells.eq_of_get_eq {hi hi' lo lo' : Nat} {cs cs' : List (Nat × Word)} (h : Cells.wf hi lo cs = true)
    (h' : Cells.wf hi' lo' cs' = true) (hget : ∀ a, Cells.get cs a = Cells.get cs' a) : cs = cs' := by
  induction cs generalizing lo lo' cs' with
  | nil => exact (Cells.eq_nil_of_get_eq_zero h' fun a => (hget a).symm).symm
  | cons c cs ih =>
    obtain ⟨a, v⟩ := c
    cases cs' with
    | nil => exact Cells.eq_nil_of_get_eq_zero h hget
    | cons c' cs' =>
      obtain ⟨b, w⟩ := c'
      obtain rfl : a = b :=
        le_antisymm (Cells.head_le_of_get_eq h' h (hget b).symm) (Cells.head_le_of_get_eq h h' (hget a))
      obtain rfl : v = w := by simpa [Cells.get_head] using hget a
      obtain ⟨-, -, -, hcs⟩ := (Cells.wf_cons ..).mp h
      obtain ⟨-, -, -, hcs'⟩ := (Cells.wf_cons ..).mp h'
      have htail : ∀ x, Cells.get cs x = Cells.get cs' x := by
        intro x
        by_cases hx : x = a
        · rw [Cells.get_of_lt hcs (by omega), Cells.get_of_lt hcs' (by omega)]
        · simpa [Cells.get_cons, hx] using hget x
      rw [ih hcs hcs' htail]

theorem Memory.eq_of_read_eq {m m' : Memory} (h : m.wf = true) (h' : m'.wf = true) (hlen : m.len = m'.len)
    (hread : ∀ a, m.read a = m'.read a) : m = m' := by
  have hcells : m.cells = m'.cells :=
    Cells.eq_of_get_eq h h' fun a => by rw [← Memory.read_eq_get h, ← Memory.read_eq_get h', hread a]
  exact congrArg₂ Memory.mk hlen hcells

/-! ## The addresses of parameters (R54, R55) -/

theorem exists_addr_val_eq {z : Int} (h₀ : 0 ≤ z) (h₁ : z ≤ Config.addrMax) : ∃ a : Addr, (a.val : Int) = z :=
  ⟨⟨z.toNat, by omega⟩, Int.toNat_of_nonneg h₀⟩

/-- No Word is above `ADDR_MAX` (R5). -/
theorem word_val_le_addrMax (w : Word) : w.val ≤ Config.addrMax := w.isLe.trans (by decide)

theorem readOperand_immediate (s : State) (p : Word) : readOperand s ⟨.immediate, p⟩ = .ok p := rfl

theorem readOperand_position {s : State} {p : Word} {a : Addr} (h : (a.val : Int) = p.val) :
    readOperand s ⟨.position, p⟩ = .ok (s.mem.read a.val) := by
  simp [readOperand, readAddr, toAddr_eq_ok.mpr h, operandValue]

theorem writeAddr_immediate (s : State) (k : Nat) (p : Word) :
    writeAddr s k ⟨.immediate, p⟩ = .error (.invalidWriteTarget k) := rfl

theorem writeAddr_position {s : State} {p : Word} {a : Addr} (h : (a.val : Int) = p.val) (k : Nat) :
    writeAddr s k ⟨.position, p⟩ = .ok a := toAddr_eq_ok.mpr h

theorem readOperand_of_badAddress {s : State} {p : Param} {z : Int} (h : BadAddress s p z) :
    readOperand s p = .error (.invalidAddress z) :=
  readOperand_eq_error.mpr (readAddr_eq_error.mpr ⟨z, h, rfl⟩)

theorem writeAddr_of_badAddress {s : State} {p : Param} {z : Int} (h : BadAddress s p z) (k : Nat) :
    writeAddr s k p = .error (.invalidAddress z) :=
  writeAddr_eq_error.mpr (.inr ⟨z, h, rfl⟩)

/-! ## The one write of a completed instruction (R47, R107) -/

theorem Executes.write_eq_none {i : Instr} {s : State} {e : Effects} (h : Executes i s e) (hw : writeParam? i = none) :
    e.write = none := by
  by_contra hne
  have hi := h.write_of_ne hne
  cases i with
  | add | mul | inp | lt | eq => cases hw
  | out | jnz | jz | arb | hlt => exact hi

theorem Executes.write_eq_some {i : Instr} {s : State} {e : Effects} {k : Nat} {d : Param} (h : Executes i s e)
    (hw : writeParam? i = some (k, d)) : ∃ a v, writeAddr s k d = .ok a ∧ e.write = some (a, v) := by
  cases i with
  | add | mul =>
    obtain ⟨x, y, dst, r, ho, -, rfl⟩ := h
    obtain ⟨-, -, hdst⟩ := operandsF3_eq_ok.mp ho
    cases hw
    exact ⟨dst, r, hdst, rfl⟩
  | lt | eq =>
    obtain ⟨x, y, dst, ho, rfl⟩ := h
    obtain ⟨-, -, hdst⟩ := operandsF3_eq_ok.mp ho
    cases hw
    exact ⟨dst, _, hdst, rfl⟩
  | inp =>
    obtain ⟨dst, v, q, ho, -, rfl⟩ := h
    cases hw
    exact ⟨dst, v, operandF1W_eq_ok.mp ho, rfl⟩
  | out | jnz | jz | arb | hlt => cases hw

/-- A step either does not end `READY`, and leaves memory and the parameters as they were, or commits the effects of the
fetched instruction, whose write fits. -/
theorem step_uncommitted_or_commit {s t : State} (h : step s = .next t) :
    (t.status ≠ .ready ∧ t.mem = s.mem ∧ t.params = s.params) ∨
      ∃ i e pc', fetch s = .ok i ∧ Executes i s e ∧ WriteFits s e.write ∧ t = commit e pc' s := by
  obtain ⟨-, ⟨e, -, rfl⟩ | ⟨i, hi, h⟩⟩ := step_cases h
  · exact .inl ⟨nofun, rfl, rfl⟩
  · obtain ⟨f, rfl⟩ | ⟨d, -, -, rfl⟩ | ⟨-, rfl⟩ | ⟨e, he, hc⟩ := exec_cases h
    · exact .inl ⟨nofun, rfl, rfl⟩
    · exact .inl ⟨nofun, rfl, rfl⟩
    · exact .inl ⟨nofun, rfl, rfl⟩
    · obtain ⟨pc', -, hw, rfl⟩ := complete_eq_ok.mp hc
      exact .inr ⟨i, e, pc', hi, he, hw, rfl⟩

theorem step_len_le {s t : State} (h : step s = .next t) : s.mem.len ≤ t.mem.len := by
  obtain ⟨-, hm, -⟩ | ⟨i, e, pc', -, -, -, rfl⟩ := step_uncommitted_or_commit h
  · exact hm ▸ le_rfl
  · exact le_writeBack_len s.mem e.write

/-- A step of an instruction without a write parameter leaves memory as it was. -/
theorem step_mem_of_writeParam?_eq_none {s t : State} {i : Instr} (h : step s = .next t) (hi : fetch s = .ok i)
    (hw : writeParam? i = none) : t.mem = s.mem := by
  obtain ⟨-, hm, -⟩ | ⟨i', e, pc', hi', he, -, rfl⟩ := step_uncommitted_or_commit h
  · exact hm
  · obtain rfl : i = i' := Except.ok.inj (hi.symm.trans hi')
    rw [commit_mem, he.write_eq_none hw, writeBack_none]

/-- A completing step of an instruction with a write parameter performs one `MemWrite`, at that parameter's address. -/
theorem step_mem_of_writeParam?_eq_some {s t : State} {i : Instr} {k : Nat} {d : Param} (h : step s = .next t)
    (hi : fetch s = .ok i) (hw : writeParam? i = some (k, d)) (ht : t.status = .ready) :
    ∃ a, writeAddr s k d = .ok a ∧ a.val < s.params.memCapacity ∧ ∃ v, t.mem = s.mem.write a.val v := by
  obtain ⟨hne, -, -⟩ | ⟨i', e, pc', hi', he, hfits, rfl⟩ := step_uncommitted_or_commit h
  · exact absurd ht hne
  · obtain rfl : i = i' := Except.ok.inj (hi.symm.trans hi')
    obtain ⟨a, v, ha, hv⟩ := he.write_eq_some hw
    exact ⟨a, ha, hfits a v hv, v, by rw [commit_mem, hv, writeBack_some]⟩

theorem writeBack_len_le {s : State} {w : Option (Addr × Word)} (h : WriteFits s w) :
    (writeBack s.mem w).len ≤ max s.mem.len s.params.memCapacity := by
  cases w with
  | none => exact le_max_left _ _
  | some w =>
    obtain ⟨a, v⟩ := w
    exact max_le_max le_rfl (writeFits_some.mp h)

theorem Responds.len_le {c : Command} {s t : State} {r : Response} (h : Responds c s r t) : s.mem.len ≤ t.mem.len :=
  h.keeps (P := fun u => s.mem.len ≤ u.mem.len) (fun _ _ hu hstep => hu.trans (step_len_le hstep)) (fun _ _ _ hu => hu)
    le_rfl

/-! ## The storing instructions, once their operands are there -/

/-- A Word is the result of LT when it is 1 for a smaller first operand and 0 otherwise (R93). -/
theorem aluLt_eq_of_val {x y r : Word} (h : r.val = if x.val < y.val then 1 else 0) : aluLt x y = r := by
  refine Word.ext (h ▸ ?_)
  unfold aluLt
  split <;> rfl

/-- A Word is the result of EQ when it is 1 for equal operands and 0 otherwise (R94). -/
theorem aluEq_eq_of_val {x y r : Word} (h : r.val = if x = y then 1 else 0) : aluEq x y = r := by
  refine Word.ext (h ▸ ?_)
  unfold aluEq
  simp only [Word.ext_iff]
  split <;> rfl

/-- An F3 instruction whose operands resolve and whose result is a Word goes on to the last two checks (R107 step 8). -/
theorem execF3_eq_conclude_complete {g : Word → Word → Except Fatal Word} {s : State} {a b d : Param} {x y r : Word}
    {dst : Addr} (ha : readOperand s a = .ok x) (hb : readOperand s b = .ok y) (hd : writeAddr s 3 d = .ok dst)
    (hr : g x y = .ok r) :
    execF3 g a b d s = conclude s (complete { advance 4 s with write := some (dst, r) } s) := by
  rw [execF3, operandsF3_eq_ok.mpr ⟨ha, hb, hd⟩, except_ok_bind]
  simp only [hr, except_ok_bind]

/-- So does an `IN` whose target resolves and that finds a value in `INQ`. -/
theorem execIn_eq_conclude_complete {s : State} {d : Param} {v : Word} {q : List Word} {dst : Addr}
    (hd : writeAddr s 1 d = .ok dst) (hq : s.inq = v :: q) :
    execIn d s = conclude s (complete { advance 2 s with write := some (dst, v), pop := true } s) := by
  rw [execIn, operandF1W_eq_ok.mpr hd, except_ok_bind]
  simp only [hq]

/-- A write at or above the capacity faults, the new `pc` being an address (R131, R133). -/
theorem conclude_complete_of_capacity {s : State} {e : Effects} {dst pc' : Addr} {r : Word} (hpc : pc'.val = e.pcNext)
    (hw : e.write = some (dst, r)) (hcap : s.params.memCapacity ≤ dst.val) :
    conclude s (complete e s) = .next (faultedWith s .capacityExceeded dst.val) := by
  have hle : e.pcNext ≤ Config.addrMax := hpc ▸ Nat.lt_succ_iff.mp pc'.isLt
  rw [complete_eq_error.mpr (.inr ⟨hle, dst, r, hw, hcap, rfl⟩)]
  rfl

/-! ## Self-modification (R60, R148) -/

/-- A commit that stores a Word where it moves `pc`: the next step fetches that Word, with the Words behind it. -/
theorem fetchesStored_commit {s : State} {e : Effects} {dst : Addr} {r : Word} (hwf : s.mem.wf = true)
    (hw : e.write = some (dst, r)) : FetchesStored s (commit e dst s) dst r := by
  have hmem : (commit e dst s).mem = s.mem.write dst.val r := by rw [commit_mem, hw, writeBack_some]
  have hself : (commit e dst s).mem.read dst.val = r := by rw [hmem, Memory.read_write_self hwf]
  have hbehind : ∀ k, (commit e dst s).mem.read (dst.val + (k + 1)) = s.mem.read (dst.val + (k + 1)) := fun k => by
    rw [hmem, Memory.read_write_ne hwf r (by omega)]
  have hready : (commit e dst s).status ≠ .faulted := nofun
  refine ⟨rfl, hself, ?_, fun i hi => ?_, fun x hx => ?_⟩
  · rw [fetch_eq_decode, commit_pc, hself, hbehind 0, hbehind 1, hbehind 2]
  · rw [step_of_ne_faulted hready, hi]
  · rw [step_of_ne_faulted hready, hx, commit_pc, hself, ← hself]
    rfl

/-- An instruction whose write fits and goes where `pc` goes next commits, and its Word is fetched next. -/
theorem exists_fetchesStored_of_fits {s : State} {e : Effects} {dst : Addr} {r : Word} (hwf : s.mem.wf = true)
    (hw : e.write = some (dst, r)) (hpc : dst.val = e.pcNext) (hcap : dst.val < s.params.memCapacity) :
    ∃ t, conclude s (complete e s) = .next t ∧ FetchesStored s t dst r := by
  have hfits : WriteFits s e.write := hw ▸ writeFits_some.mpr hcap
  refine ⟨commit e dst s, ?_, fetchesStored_commit hwf hw⟩
  rw [complete_of_fits hpc hfits, conclude_ok]

/-! ## The observations of the host (R117) -/

theorem readableFault_of_ne_faulted {s : State} (h : s.status ≠ .faulted) : readableFault s = none := by
  unfold readableFault
  split
  · rfl
  · rfl
  · rfl
  · contradiction

theorem readableFault_of_faulted {s : State} (h : s.status = .faulted) : readableFault s = some s.fault := by
  unfold readableFault
  rw [h]

/-- A command that answers the same with any fuel has that one answer. -/
theorem responds_iff_of_transact {c : Command} {s t₀ : State} {r₀ : Response}
    (h : ∀ fuel, transact fuel c s = some (r₀, t₀)) (r : Response) (t : State) :
    Responds c s r t ↔ r = r₀ ∧ t = t₀ := by
  constructor
  · rintro ⟨fuel, hr⟩
    rw [h fuel] at hr
    cases hr
    exact ⟨rfl, rfl⟩
  · rintro ⟨rfl, rfl⟩
    exact ⟨0, h 0⟩

/-- `CLONE` and the observations leave the state they are given as it was, faulted or not (R116, R117, R135). -/
theorem Responds.eq_of_observation {c : Command} {s t : State} {r : Response} (h : Responds c s r t)
    (hc : c ∈ [Command.clone, .readStatus, .peekLen, .peekRegs] ∨ ∃ a, c = .peek a) : t = s := by
  obtain ⟨fuel, h⟩ := h
  by_cases hs : s.status = .faulted
  · simp only [transact_of_faulted hs, Option.some.injEq] at h
    rw [← performFaulted_state c s, h]
  · rw [transact_of_ne_faulted hs] at h
    simp only [List.mem_cons, List.not_mem_nil, or_false] at hc
    obtain (rfl | rfl | rfl | rfl) | ⟨a, rfl⟩ := hc <;> cases h <;> rfl

end Sys2Proof.Machine

/-! PROOFS. The statements of the family "memory". -/

namespace Sys2Proof.Proofs
open Sys2Proof.Machine Sys2Proof.Statements

/-- Settles O8, mode by mode: an address in range is read, and any other is a bad address. -/
theorem readOperandFollowsItsMode : Obligations.ReadOperandFollowsItsMode := by
  intro s p
  refine ⟨readOperand_immediate s p, fun h₀ => ?_, fun hneg => ?_, fun h₀ h₁ => ?_, fun hbad => ?_⟩
  · obtain ⟨a, ha⟩ := exists_addr_val_eq h₀ (word_val_le_addrMax p)
    rw [readOperand_position ha, ← ha, Int.toNat_natCast]
  · exact readOperand_of_badAddress ⟨rfl, .inl hneg⟩
  · obtain ⟨a, ha⟩ := exists_addr_val_eq h₀ h₁
    rw [readOperand_relative ha, ← ha, Int.toNat_natCast]
  · exact readOperand_of_badAddress ⟨rfl, hbad⟩

/-- Settles O9, mode by mode. -/
theorem writeAddressFollowsItsMode : Obligations.WriteAddressFollowsItsMode :=
  fun s i p => ⟨writeAddr_immediate s i p, fun _ ha => writeAddr_position ha i,
    fun hneg => writeAddr_of_badAddress ⟨rfl, .inl hneg⟩ i, fun _ ha => writeAddr_relative ha i,
    fun hbad => writeAddr_of_badAddress ⟨rfl, hbad⟩ i⟩

/-- Settles O10: reads are the array's elements, and 0 from the length on. -/
theorem memoryReadIsTheArrayRead : Obligations.MemoryReadIsTheArrayRead := by
  intro m a h
  refine ⟨m.length_toList, ?_⟩
  split
  · exact (Memory.getD_toList h a).symm
  · next ha => exact Memory.read_of_len_le (by omega)

/-- Settles O11, element by element, from what a read answers after a write. -/
theorem memoryWriteIsTheArrayWrite : Obligations.MemoryWriteIsTheArrayWrite :=
  fun _ a v h => Memory.toList_write h a v

/-- Settles O12, by induction on the cells: lists that agree begin at the same address with the same Word. -/
theorem canonicalMemoriesWithEqualReadsAreEqual : Obligations.CanonicalMemoriesWithEqualReadsAreEqual :=
  fun _ _ h h' => Memory.eq_of_read_eq h h'

/-- Settles O13: only a commit changes memory, by its one write; and what every step keeps, every command keeps. -/
theorem memoryLengthNeverDecreases : Obligations.MemoryLengthNeverDecreases := by
  refine ⟨fun s t h => ⟨step_len_le h, ?_, fun _ => step_mem_of_writeParam?_eq_none h,
    fun _ _ _ => step_mem_of_writeParam?_eq_some h⟩, fun c s r t h => ⟨h.len_le, ?_⟩,
    fun _ program => Memory.len_ofList program⟩
  · intro ht
    obtain ⟨-, hm, -⟩ | ⟨i, e, pc', -, -, -, rfl⟩ := step_uncommitted_or_commit h
    · exact hm
    · exact absurd rfl ht
  · intro h₁ h₂
    obtain ⟨inq, outq, rfl⟩ := h.queues_only h₁ h₂
    rfl

/-- Settles O14: the write of a commit is below the capacity. -/
theorem stepNeverGrowsMemoryBeyondCapacity : Obligations.StepNeverGrowsMemoryBeyondCapacity := by
  intro s t h
  obtain ⟨-, hm, hp⟩ | ⟨i, e, pc', -, -, hfits, rfl⟩ := step_uncommitted_or_commit h
  · exact ⟨hm ▸ le_max_left _ _, hp⟩
  · exact ⟨writeBack_len_le hfits, rfl⟩

/-- Settles O15: each storing instruction commits at its destination, which is where `pc` goes next. -/
theorem storedWordIsFetchedByTheNextStep : Obligations.StoredWordIsFetchedByTheNextStep := by
  constructor
  · intro s a b d x y r dst hwf ha hb hd hpc hcap
    have stores {g : Word → Word → Except Fatal Word} (hr : g x y = .ok r) :
        ∃ t, execF3 g a b d s = .next t ∧ FetchesStored s t dst r := by
      rw [execF3_eq_conclude_complete ha hb hd hr]
      exact exists_fetchesStored_of_fits hwf rfl hpc hcap
    simp only [exec_add, exec_mul, exec_lt, exec_eq]
    exact ⟨fun hr => stores (toWord_eq_ok.mpr hr), fun hr => stores (toWord_eq_ok.mpr hr),
      fun hr => stores (congrArg Except.ok (aluLt_eq_of_val hr)),
      fun hr => stores (congrArg Except.ok (aluEq_eq_of_val hr))⟩
  · intro s d v q dst hwf hd hq hpc hcap
    rw [exec_inp, execIn_eq_conclude_complete hd hq]
    exact exists_fetchesStored_of_fits hwf rfl hpc hcap

/-- Settles O33: each storing instruction comes to the last two checks, of which only the capacity fails. -/
theorem writeAtOrAboveCapacityFaults : Obligations.WriteAtOrAboveCapacityFaults := by
  constructor
  · intro s a b d x y dst pc' ha hb hd hpc hcap
    have faults {g : Word → Word → Except Fatal Word} {r : Word} (hr : g x y = .ok r) :
        execF3 g a b d s = .next (faultedWith s .capacityExceeded dst.val) := by
      rw [execF3_eq_conclude_complete ha hb hd hr]
      exact conclude_complete_of_capacity hpc rfl hcap
    simp only [exec_add, exec_mul, exec_lt, exec_eq]
    exact ⟨fun h₀ h₁ => faults (r := ⟨_, h₀, h₁⟩) (toWord_eq_ok.mpr rfl),
      fun h₀ h₁ => faults (r := ⟨_, h₀, h₁⟩) (toWord_eq_ok.mpr rfl), faults rfl, faults rfl⟩
  · intro s d dst pc' hd hq hpc hcap
    obtain ⟨v, q, hq⟩ := List.exists_cons_of_ne_nil hq
    rw [exec_inp, execIn_eq_conclude_complete hd hq]
    exact conclude_complete_of_capacity hpc rfl hcap

/-- Settles O46: the commands that do not step change at most the queues, and each observation has its one answer. -/
theorem hostCommandsExecuteNothing : Obligations.HostCommandsExecuteNothing := by
  refine ⟨fun c s r t h h₁ h₂ => ?_, fun s hs r t => ⟨?_, fun a => ?_, ?_, ?_⟩, fun s hs r t => ?_⟩
  · have hobs := h.eq_of_observation
    obtain ⟨inq, outq, rfl⟩ := h.queues_only h₁ h₂
    exact ⟨rfl, rfl, rfl, rfl, rfl, rfl, hobs⟩
  · refine responds_iff_of_transact (fun fuel => ?_) r t
    rw [transact_of_ne_faulted hs, perform, readableFault_of_ne_faulted hs]
  · exact responds_iff_of_transact (fun fuel => transact_of_ne_faulted hs fuel _) r t
  · exact responds_iff_of_transact (fun fuel => transact_of_ne_faulted hs fuel _) r t
  · exact responds_iff_of_transact (fun fuel => transact_of_ne_faulted hs fuel _) r t
  · refine responds_iff_of_transact (fun fuel => ?_) r t
    rw [transact_of_faulted hs, performFaulted, readableFault_of_faulted hs, hs]

end Sys2Proof.Proofs

/-! PROOFS. Shared lemmas of the family "encoding": which Words decode (R72, R73), and the round trip between instructions
and their canonical encodings (R70, R81). -/

namespace Sys2Proof
open Sys2Proof.Statements

/-- A Word decodes to a head exactly when its decimal digits are the head's fields (R71, R72, R73). -/
theorem decodeHead_eq_ok_iff_digits {w : Word} {h : Head} :
    decodeHead w = .ok h ↔
      0 ≤ w.val ∧ w.val ≤ 99999 ∧ w.val % 100 = h.op.code ∧ w.val / 100 % 10 = h.m1.digit ∧
        w.val / 1000 % 10 = h.m2.digit ∧ w.val / 10000 % 10 = h.m3.digit := by
  rw [decodeHead_eq_ok, decodeFields_eq_ok]
  simp only [digit, Config.instrWordMax]
  omega

/-- The Words that decode are the instruction words of heads: all five digits are kept in the head (R71, R81). -/
theorem decodeHead_eq_ok_iff_encodeHead {w : Word} {h : Head} : decodeHead w = .ok h ↔ encodeHead h = w := by
  have hop := h.op.code_le
  have h1 := h.m1.digit_le
  have h2 := h.m2.digit_le
  have h3 := h.m3.digit_le
  rw [decodeHead_eq_ok_iff_digits, Word.ext_iff, encodeHead_val, Head.number]
  omega

@[simp] theorem decodeHead_encodeHead (h : Head) : decodeHead (encodeHead h) = .ok h :=
  decodeHead_eq_ok_iff_encodeHead.mpr rfl

/-- The mode digits an operation does not use have no effect (R75). -/
theorem Head.toInstr_eq_of_sameUsedFields {h h' : Head} (e : SameUsedFields h h') (P : Nat → Word) :
    h.toInstr P = h'.toInstr P := by
  obtain ⟨op, m1, m2, m3⟩ := h
  obtain ⟨op', m1', m2', m3'⟩ := h'
  obtain ⟨rfl, e1, e2, e3⟩ := e
  cases op <;> simp_all [Head.toInstr, Opcode.params]

theorem Head.head_toInstr {h : Head} (c : IsCanonical h) (P : Nat → Word) : (h.toInstr P).head = h := by
  obtain ⟨op, m1, m2, m3⟩ := h
  obtain ⟨c1, c2, c3⟩ := c
  cases op <;> simp_all [Head.toInstr, Instr.head, Opcode.params]

theorem Head.paramWords_toInstr (h : Head) (P : Nat → Word) :
    (h.toInstr P).paramWords = (List.range h.op.params).map fun k => P (k + 1) := by
  obtain ⟨op, m1, m2, m3⟩ := h
  cases op <;> rfl

@[simp] theorem length_encode (i : Instr) : (encode i).length = i.width := by cases i <;> rfl

theorem Instr.width_eq_params_head (i : Instr) : i.width = i.head.op.params + 1 := by cases i <;> rfl

theorem encode_getD_zero (i : Instr) : (encode i).getD 0 Word.zero = encodeHead i.head := rfl

theorem Instr.toInstr_head (i : Instr) : i.head.toInstr (fun k => (encode i).getD k Word.zero) = i := by
  cases i <;> rfl

/-- The decoder reads an instruction wherever the Words are its encoding as far as its width goes (R70, R81). -/
theorem decodeFrom_of_encode {P : Nat → Word} {i : Instr} (e : ∀ k < i.width, P k = (encode i).getD k Word.zero) :
    decodeFrom P = .ok i := by
  have hw := i.width_eq_params_head
  have h₀ : decodeHead (P 0) = .ok i.head := by
    rw [e 0 (by omega), encode_getD_zero, decodeHead_encodeHead]
  rw [decodeFrom_of_head h₀, Head.toInstr_congr i.head fun k _ hk => e k (by omega), i.toInstr_head]

theorem decode_encode_append (i : Instr) (rest : List Word) : decode (encode i ++ rest) = .ok i :=
  decodeFrom_of_encode fun k hk => List.getD_append _ _ _ k (by rwa [length_encode])

theorem decode_of_encode_eq {i : Instr} {ws : List Word} (e : encode i = ws) : decode ws = .ok i := by
  rw [← e, ← List.append_nil (encode i), decode_encode_append]

end Sys2Proof

/-! PROOFS. The statements of the family "encoding". -/

namespace Sys2Proof.Proofs
open Sys2Proof.Machine Sys2Proof.Statements

/-- Settles O2: the head's digits read back, and the parameter words follow the instruction word. -/
theorem decodeOfEncodeIsTheInstruction : Obligations.DecodeOfEncodeIsTheInstruction :=
  decode_encode_append

/-- Settles O3: the Word is its head's instruction word, and a canonical head is that of its instruction. -/
theorem encodeOfCanonicalDecodeIsTheWord : Obligations.EncodeOfCanonicalDecodeIsTheWord := by
  intro w h P hd hc
  rw [encode, Head.head_toInstr hc, decodeHead_eq_ok_iff_encodeHead.mp hd, Head.paramWords_toInstr]

/-- Settles O4: the decoder's fields are the Word's decimal digits, and an instruction keeps only those its operation uses. -/
theorem wordDecodesExactlyWhenItsDigitsAreLegal : Obligations.WordDecodesExactlyWhenItsDigitsAreLegal :=
  ⟨fun _ _ => decodeHead_eq_ok_iff_digits, fun _ _ _ _ P _ _ e => Head.toInstr_eq_of_sameUsedFields e P⟩

/-- Settles O5: the fetch of such a Word fails, and fault entry leaves the state named. -/
theorem undecodableWordFaultsInvalidOpcode : Obligations.UndecodableWordFaultsInvalidOpcode := by
  intro s e hs hd
  rw [step_of_ne_faulted hs, fetch_eq_decode_wordsAtPc, hd]
  rfl

/-- Settles O7: what is fetched from an encoding is its instruction. -/
theorem encodedInstructionAtPcRuns : Obligations.EncodedInstructionAtPcRuns := by
  intro s i hs hmem
  have hfetch : fetch s = .ok i := decodeFrom_of_encode hmem
  rw [step_of_ne_faulted hs, hfetch]

/-- Settles O1: each list of Words is the canonical encoding of its instruction. -/
theorem decodeReadsTheWordsTheSpecWritesOut : Obligations.DecodeReadsTheWordsTheSpecWritesOut :=
  ⟨decode_of_encode_eq (by decide), decode_of_encode_eq (by decide), decode_of_encode_eq (by decide),
    decode_of_encode_eq (by decide), decode_of_encode_eq (by decide)⟩

end Sys2Proof.Proofs

/-! PROOFS. Shared lemmas of the family "alu": how an instruction of format F3 ends once its operands are there (R90). -/

namespace Sys2Proof.Machine
open Sys2Proof.Statements

section
variable {g : Word → Word → Except Fatal Word} {s : State} {a b d : Param} {x y : Word} {dst : Addr}

/-- An F3 instruction that passes every check writes its result and moves `pc`, and nothing else changes (R90, R107). -/
theorem execF3_of_fits {r : Word} {pc' : Addr} (ha : readOperand s a = .ok x) (hb : readOperand s b = .ok y)
    (hd : writeAddr s 3 d = .ok dst) (hr : g x y = .ok r) (hpc : pc'.val = s.pc.val + 4)
    (hcap : dst.val < s.params.memCapacity) :
    execF3 g a b d s = .next { s with mem := s.mem.write dst.val r, pc := pc', status := .ready } := by
  rw [execF3_eq_conclude_complete ha hb hd hr, complete_of_fits hpc (writeFits_some.mpr hcap), conclude_ok]
  rfl

/-- A result that its ALU operation refuses faults before the checks of the new `pc` and of the capacity (R107, R133). -/
theorem execF3_of_result_error {f : Fatal} (ha : readOperand s a = .ok x) (hb : readOperand s b = .ok y)
    (hd : writeAddr s 3 d = .ok dst) (hf : g x y = .error f) : execF3 g a b d s = .next (faultEntry f s) := by
  rw [execF3, operandsF3_eq_ok.mpr ⟨ha, hb, hd⟩, except_ok_bind]
  simp only [hf, except_error_bind, conclude_error]

/-- An exact result outside the Word range faults `ArithmeticOverflow` with that result as detail (R130). -/
theorem execF3_toWord_of_outOfRange {alu : Word → Word → Int} (ha : readOperand s a = .ok x)
    (hb : readOperand s b = .ok y) (hd : writeAddr s 3 d = .ok dst)
    (h : alu x y < Config.wordMin ∨ Config.wordMax < alu x y) :
    execF3 (fun x y => toWord (alu x y)) a b d s = .next (faultedWith s .arithmeticOverflow (alu x y)) := by
  have hf : toWord (alu x y) = .error (.arithmeticOverflow (alu x y)) := toWord_eq_error.mpr ⟨h, rfl⟩
  rw [execF3_of_result_error ha hb hd hf]
  rfl

end

end Sys2Proof.Machine

/-! PROOFS. The statements of the family "alu". -/

namespace Sys2Proof.Proofs
open Sys2Proof.Machine Sys2Proof.Statements

/-- Settles O16: a Word equal to the exact sum is what the range verdict lets through. -/
theorem addStoresTheExactSum : Obligations.AddStoresTheExactSum := by
  intro s a b d x y r dst pc' ha hb hd hr hpc hcap
  rw [exec_add]
  exact execF3_of_fits ha hb hd (toWord_eq_ok.mpr hr) hpc hcap

/-- Settles O17: a Word equal to the exact product is what the range verdict lets through. -/
theorem mulStoresTheExactProduct : Obligations.MulStoresTheExactProduct := by
  intro s a b d x y r dst pc' ha hb hd hr hpc hcap
  rw [exec_mul]
  exact execF3_of_fits ha hb hd (toWord_eq_ok.mpr hr) hpc hcap

/-- Settles O18: the two cases of the comparison determine the Word that LT stores. -/
theorem ltStoresTheSignedComparison : Obligations.LtStoresTheSignedComparison := by
  intro s a b d x y r dst pc' ha hb hd hlt hge hpc hcap
  have hr : r.val = if x.val < y.val then 1 else 0 := by
    split
    · next h => exact hlt h
    · next h => exact hge (not_lt.mp h)
  rw [exec_lt]
  exact execF3_of_fits ha hb hd (congrArg Except.ok (aluLt_eq_of_val hr)) hpc hcap

/-- Settles O19: the two cases of the equality test determine the Word that EQ stores. -/
theorem eqStoresTheEqualityTest : Obligations.EqStoresTheEqualityTest := by
  intro s a b d x y r dst pc' ha hb hd heq hne hpc hcap
  have hr : r.val = if x = y then 1 else 0 := by
    split
    · next h => exact heq h
    · next h => exact hne h
  rw [exec_eq]
  exact execF3_of_fits ha hb hd (congrArg Except.ok (aluEq_eq_of_val hr)) hpc hcap

/-- Settles O32: the range verdict on the exact result comes before the checks of `pc` and of the capacity. -/
theorem resultOutsideTheWordRangeFaults : Obligations.ResultOutsideTheWordRangeFaults := by
  intro s a b d x y dst ha hb hd
  rw [exec_add, exec_mul]
  exact ⟨execF3_toWord_of_outOfRange (alu := aluAdd) ha hb hd, execF3_toWord_of_outOfRange (alu := aluMul) ha hb hd⟩

end Sys2Proof.Proofs

/-! PROOFS. Shared lemmas of the family "io": an instruction that does not complete changes at most the record, what a
completed IN and a completed OUT leave, and when they complete (R96 to R99). -/

namespace Sys2Proof

/-- An instruction is decoded exactly from the numbers of the heads that give it (R73, R76, R81). -/
theorem decodeFrom_eq_ok_iff_number {P : Nat → Word} {i : Instr} :
    decodeFrom P = .ok i ↔ ∃ h : Head, (P 0).val = h.number ∧ h.toInstr P = i := by
  simp only [decodeFrom_eq_ok, decodeHead_eq_ok_iff_encodeHead, Word.ext_iff, encodeHead_val,
    eq_comm (b := (P 0).val)]

theorem Head.toInstr_eq_out_iff {h : Head} {P : Nat → Word} {a : Param} :
    h.toInstr P = .out a ↔ h.op = .out ∧ h.m1 = a.mode ∧ a.word = P 1 := by
  obtain ⟨op, m1, m2, m3⟩ := h
  obtain ⟨mode, word⟩ := a
  cases op <;> simp [Head.toInstr, eq_comm]

/-- The Words that decode to OUT: opcode 4, and any mode digits (R71, R75, R99). -/
theorem decodeFrom_eq_out_iff {P : Nat → Word} {a : Param} :
    decodeFrom P = .ok (.out a) ↔ a.word = P 1 ∧ ∃ m2 m3 : Mode,
      (P 0).val = 4 + 100 * a.mode.digit + 1000 * m2.digit + 10000 * m3.digit := by
  simp only [decodeFrom_eq_ok_iff_number, Head.toInstr_eq_out_iff]
  constructor
  · rintro ⟨⟨op, m1, m2, m3⟩, hn, rfl, rfl, ha⟩
    exact ⟨ha, m2, m3, by simpa [Head.number, Opcode.code] using hn⟩
  · rintro ⟨ha, m2, m3, hn⟩
    exact ⟨⟨.out, a.mode, m2, m3⟩, by simpa [Head.number, Opcode.code] using hn, rfl, rfl, ha⟩

end Sys2Proof

namespace Sys2Proof.Machine
open Sys2Proof.Statements

/-! ## The value of a read parameter (R46, R54) -/

theorem readAddr_eq_ok {s : State} {p : Param} {o : Option Addr} :
    readAddr s p = .ok o ↔ exactAddress s p = o.map fun a => (a.val : Int) := by
  obtain ⟨mode, word⟩ := p
  cases mode with
  | immediate => cases o <;> simp [readAddr, exactAddress]
  | position | relative =>
    simp only [readAddr, exactAddress, except_map_eq_ok, toAddr_eq_ok]
    cases o <;> simp [eq_comm]

theorem exists_readOperand_of_goodAddress {s : State} {p : Param} (h : GoodAddress s p) :
    ∃ x, readOperand s p = .ok x := by
  cases e : readOperand s p with
  | ok x => exact ⟨x, rfl⟩
  | error f =>
    obtain ⟨z, ⟨hz, hout⟩, -⟩ := readAddr_eq_error.mp (readOperand_eq_error.mp e)
    have := h z hz
    omega

/-- A Position or Relative operand at or beyond `len` is 0 (R46, R99). -/
theorem readOperand_eq_zero_of_len_le {s : State} {p : Param} {x : Word} {z : Int} (hx : readOperand s p = .ok x)
    (hz : exactAddress s p = some z) (hlen : (s.mem.len : Int) ≤ z) : x = Word.zero := by
  obtain ⟨o, ho, rfl⟩ := readOperand_eq_ok.mp hx
  have hoz := hz.symm.trans (readAddr_eq_ok.mp ho)
  cases o with
  | none => cases hoz
  | some a =>
    cases hoz
    exact Memory.read_of_len_le (Int.ofNat_le.mp hlen)

/-! ## An instruction that does not complete -/

/-- An instruction that does not complete changes at most the record: it faults, or it blocks or halts and keeps `FAULT`. -/
def OnlyRecords (s t : State) : Prop :=
  ∃ st f, t = s.withRecord st f ∧ st ≠ .ready ∧ (st ≠ .faulted → f = s.fault)

theorem onlyRecords_faultEntry (f : Fatal) (s : State) : OnlyRecords s (faultEntry f s) :=
  ⟨.faulted, _, rfl, nofun, fun h => absurd rfl h⟩

theorem exec_onlyRecords_or_completes {i : Instr} {s t : State} (h : exec i s = .next t) :
    OnlyRecords s t ∨ Completes i s t := by
  obtain ⟨f, rfl⟩ | ⟨d, -, -, rfl⟩ | ⟨-, rfl⟩ | hc := exec_cases h
  · exact .inl (onlyRecords_faultEntry f s)
  · exact .inl ⟨.blocked, s.fault, rfl, nofun, fun _ => rfl⟩
  · exact .inl ⟨.halted, s.fault, rfl, nofun, fun _ => rfl⟩
  · exact .inr hc

theorem step_onlyRecords_or_completes {s t : State} (h : step s = .next t) :
    OnlyRecords s t ∨ ∃ i, fetch s = .ok i ∧ Completes i s t := by
  obtain ⟨-, ⟨e, -, rfl⟩ | ⟨i, hi, h⟩⟩ := step_cases h
  · exact .inl (onlyRecords_faultEntry _ s)
  · exact (exec_onlyRecords_or_completes h).imp_right fun hc => ⟨i, hi, hc⟩

/-! ## Who touches the queues (R96) -/

/-- Only an IN pops. -/
theorem Completes.eq_inp_of_inq_ne {i : Instr} {s t : State} (h : Completes i s t) (hne : t.inq ≠ s.inq) :
    ∃ d, i = .inp d := by
  obtain ⟨e, he, hc⟩ := h
  obtain ⟨pc', -, -, rfl⟩ := complete_eq_ok.mp hc
  cases hp : e.pop with
  | true => exact he.pop_eq_true hp
  | false => simp [hp] at hne

/-- Only an OUT pushes. -/
theorem Completes.eq_out_of_outq_ne {i : Instr} {s t : State} (h : Completes i s t) (hne : t.outq ≠ s.outq) :
    ∃ a, i = .out a := by
  obtain ⟨e, he, hc⟩ := h
  obtain ⟨pc', -, -, rfl⟩ := complete_eq_ok.mp hc
  refine he.push_of_ne fun hp => hne ?_
  rw [commit_outq, hp, pushOutput_none]

/-- Only an ARB writes `rb` (R22). -/
theorem Completes.eq_arb_of_rb_ne {i : Instr} {s t : State} (h : Completes i s t) (hne : t.rb ≠ s.rb) :
    ∃ a, i = .arb a := by
  obtain ⟨e, he, hc⟩ := h
  obtain ⟨pc', -, -, rfl⟩ := complete_eq_ok.mp hc
  exact he.rbNext_of_ne hne

theorem Completes.mem_of_writeParam?_eq_none {i : Instr} {s t : State} (h : Completes i s t)
    (hw : writeParam? i = none) : t.mem = s.mem := by
  obtain ⟨e, he, hc⟩ := h
  obtain ⟨pc', -, -, rfl⟩ := complete_eq_ok.mp hc
  rw [commit_mem, he.write_eq_none hw, writeBack_none]

/-- A commit writes neither the parameters nor `FAULT` (R107). -/
theorem Completes.params_fault {i : Instr} {s t : State} (h : Completes i s t) :
    t.params = s.params ∧ t.fault = s.fault := by
  obtain ⟨e, -, hc⟩ := h
  obtain ⟨pc', -, -, rfl⟩ := complete_eq_ok.mp hc
  exact ⟨rfl, rfl⟩

/-! ## IN (R97, R98) -/

/-- The whole next state of an IN that completes (R97). -/
theorem Completes.of_inp {d : Param} {s t : State} (h : Completes (.inp d) s t) :
    ∃ dst v q pc', writeAddr s 1 d = .ok dst ∧ s.inq = v :: q ∧ pc'.val = s.pc.val + 2 ∧
      t = { s with mem := s.mem.write dst.val v, inq := q, pc := pc', status := .ready } := by
  obtain ⟨e, ⟨dst, v, q, ho, hq, rfl⟩, hc⟩ := h
  obtain ⟨pc', hpc, -, rfl⟩ := complete_eq_ok.mp hc
  exact ⟨dst, v, q, pc', operandF1W_eq_ok.mp ho, hq, hpc, by simp [commit, hq]⟩

/-- An IN whose target resolves and that finds `INQ` empty suspends, before `pc` and the capacity are checked (R98). -/
theorem execIn_of_inq_eq_nil {s : State} {d : Param} {dst : Addr} (hd : writeAddr s 1 d = .ok dst) (hq : s.inq = []) :
    execIn d s = .next (suspend s) := by
  rw [execIn, operandF1W_eq_ok.mpr hd, except_ok_bind]
  simp only [hq, conclude_ok]

/-! ## OUT (R99) -/

/-- The whole next state of an OUT that completes (R99). -/
theorem Completes.of_out {a : Param} {s t : State} (h : Completes (.out a) s t) :
    ∃ x pc', readOperand s a = .ok x ∧ pc'.val = s.pc.val + 2 ∧
      t = { s with outq := s.outq ++ [x], pc := pc', status := .ready } := by
  obtain ⟨e, ⟨x, hx, rfl⟩, hc⟩ := h
  obtain ⟨pc', hpc, -, rfl⟩ := complete_eq_ok.mp hc
  exact ⟨x, pc', hx, hpc, rfl⟩

/-- An OUT whose operand is there goes on to the check of the new `pc` (R107 step 8). -/
theorem execOut_eq_conclude_complete {s : State} {a : Param} {x : Word} (hx : readOperand s a = .ok x) :
    execOut a s = conclude s (complete { advance 2 s with push := some x } s) := by
  rw [execOut, operandF1R, hx, except_ok_bind]

theorem execOut_of_badAddress {s : State} {a : Param} {z : Int} (h : BadAddress s a z) :
    execOut a s = .next (faultedWith s .invalidAddress z) := by
  rw [execOut, operandF1R, readOperand_of_badAddress h]
  rfl

/-- Whatever an instruction computed, a new `pc` above `ADDR_MAX` faults with the exact value (R129 e, R133 item 7). -/
theorem conclude_complete_of_pcNext {s : State} {e : Effects} (h : Config.addrMax < e.pcNext) :
    conclude s (complete e s) = .next (faultedWith s .invalidAddress e.pcNext) := by
  rw [complete_eq_error.mpr (.inl ⟨h, rfl⟩)]
  rfl

end Sys2Proof.Machine

/-! PROOFS. The statements of the family "io". -/

namespace Sys2Proof.Proofs
open Sys2Proof.Machine Sys2Proof.Statements

/-- Settles O20: every check of the commit passes, and its effects are the write and the pop. -/
theorem inStoresAndTakesTheOldestInput : Obligations.InStoresAndTakesTheOldestInput := by
  intro s d v q dst pc' hd hq hpc hcap
  rw [exec_inp, execIn_eq_conclude_complete hd hq, complete_of_fits hpc (writeFits_some.mpr hcap), conclude_ok]
  simp [commit, hq]

/-- Settles O21: the spellings are the numbers of OUT's heads; a good operand has a value, and then only `pc` is checked. -/
theorem outAppendsItsValue : Obligations.OutAppendsItsValue := by
  refine ⟨fun P a => decodeFrom_eq_out_iff, fun s a pc' hgood hpc => ?_, fun s a z => execOut_of_badAddress,
    fun s a hgood hpc => ?_⟩
  · obtain ⟨x, hx⟩ := exists_readOperand_of_goodAddress hgood
    refine ⟨x, hx, fun z hz hlen => ?_, ?_⟩
    · rw [readOperand_eq_zero_of_len_le hx hz hlen, Word.zero_val]
    · rw [exec_out, execOut_eq_conclude_complete hx, complete_of_fits hpc (writeFits_none s), conclude_ok]
      rfl
  · obtain ⟨x, hx⟩ := exists_readOperand_of_goodAddress hgood
    rw [exec_out, execOut_eq_conclude_complete hx, conclude_complete_of_pcNext hpc]
    rfl

/-- Settles O27: an IN that does not complete only records, and one that completes writes at its parameter's address. -/
theorem inputFrame : Obligations.InputFrame := by
  intro s t d hwf h
  obtain ⟨st, f, rfl, -, hf⟩ | hc := exec_onlyRecords_or_completes h
  · exact ⟨rfl, rfl, rfl, hf, fun _ _ _ _ => rfl, fun _ => ⟨rfl, rfl, rfl⟩⟩
  · obtain ⟨dst, v, q, pc', hdst, -, -, rfl⟩ := hc.of_inp
    refine ⟨rfl, rfl, rfl, fun _ => rfl, ?_, fun hne => absurd rfl hne⟩
    intro dst' hdst' x hx
    obtain rfl : dst = dst' := Except.ok.inj (hdst.symm.trans hdst')
    exact Memory.read_write_ne hwf v hx

/-- Settles O28: none has a write parameter or pops, and a new `rb` or a push tells which of them it is. -/
theorem nonStoringFrame : Obligations.NonStoringFrame := by
  intro s t a p i hi h
  obtain ⟨st, f, rfl, -, hf⟩ | hc := exec_onlyRecords_or_completes h
  · exact ⟨rfl, rfl, rfl, hf, fun _ => rfl, fun _ => rfl⟩
  · have hw : writeParam? i = none := by
      simp only [List.mem_cons, List.not_mem_nil, or_false] at hi
      obtain rfl | rfl | rfl | rfl | rfl := hi <;> rfl
    obtain ⟨hparams, hfault⟩ := hc.params_fault
    refine ⟨hparams, hc.mem_of_writeParam?_eq_none hw, ?_, fun _ => hfault, ?_, ?_⟩
    · by_contra hne
      obtain ⟨d, rfl⟩ := hc.eq_inp_of_inq_ne hne
      cases hw
    · refine fun hia => by_contra fun hne => ?_
      obtain ⟨a', rfl⟩ := hc.eq_arb_of_rb_ne hne
      exact hia (by simpa using hi)
    · refine fun hia => by_contra fun hne => ?_
      obtain ⟨a', rfl⟩ := hc.eq_out_of_outq_ne hne
      exact hia (by simpa using hi)

/-- Settles O39: such an IN suspends, only such an IN does, and input moves neither memory nor `pc`. -/
theorem onlyAStarvedInBlocks : Obligations.OnlyAStarvedInBlocks := by
  constructor
  · intro s d dst hs hi hd hq
    rw [step_of_ne_faulted hs, hi]
    exact execIn_of_inq_eq_nil hd hq
  · intro s t h ht
    obtain ⟨-, ⟨e, -, rfl⟩ | ⟨i, hi, h⟩⟩ := step_cases h
    · cases ht
    · obtain ⟨d, dst, rfl, hd, hq, rfl⟩ := exec_blocks h ht
      exact ⟨hq, rfl, d, dst, hi, hd, fun vs => hi⟩

/-- Settles O45: a changed queue means a commit that pops or pushes, and only IN pops and only OUT pushes. -/
theorem queuesAreTouchedOnlyByInAndOut : Obligations.QueuesAreTouchedOnlyByInAndOut := by
  refine ⟨fun s t h => ⟨fun hne => ?_, fun hne => ?_⟩, fun d s t h ht => ?_, fun a s t h ht => ?_,
    fun _ => ⟨rfl, rfl⟩⟩
  · obtain ⟨st, f, rfl, -, -⟩ | ⟨i, hi, hc⟩ := step_onlyRecords_or_completes h
    · exact absurd rfl hne
    · obtain ⟨d, rfl⟩ := hc.eq_inp_of_inq_ne hne
      obtain ⟨dst, v, q, pc', -, hq, -, rfl⟩ := hc.of_inp
      exact ⟨rfl, d, v, hi, hq⟩
  · obtain ⟨st, f, rfl, -, -⟩ | ⟨i, hi, hc⟩ := step_onlyRecords_or_completes h
    · exact absurd rfl hne
    · obtain ⟨a, rfl⟩ := hc.eq_out_of_outq_ne hne
      obtain ⟨x, pc', hx, -, rfl⟩ := hc.of_out
      exact ⟨rfl, a, x, hi, hx, rfl⟩
  · obtain ⟨dst, v, q, pc', -, hq, hpc, rfl⟩ := (exec_completes h ht).of_inp
    exact ⟨⟨v, hq⟩, rfl, hpc⟩
  · obtain ⟨x, pc', hx, hpc, rfl⟩ := (exec_completes h ht).of_out
    exact ⟨⟨x, hx, rfl⟩, rfl, hpc⟩

end Sys2Proof.Proofs

/-! PROOFS. Shared lemmas of the family "control": how a conditional jump ends once its operands are there (R100), which
instruction halts (R103), and a step that only records `READY`, for which `RUN` never responds (R111). -/

namespace Sys2Proof

theorem Head.toInstr_eq_hlt_iff {h : Head} {P : Nat → Word} : h.toInstr P = .hlt ↔ h.op = .hlt := by
  obtain ⟨op, m1, m2, m3⟩ := h
  cases op <;> simp [Head.toInstr]

/-- The Words that decode to HLT: opcode 99, and any mode digits (R71, R75, R103). -/
theorem decodeFrom_eq_hlt_iff {P : Nat → Word} :
    decodeFrom P = .ok .hlt ↔ ∃ m1 m2 m3 : Mode,
      (P 0).val = 99 + 100 * m1.digit + 1000 * m2.digit + 10000 * m3.digit := by
  simp only [decodeFrom_eq_ok_iff_number, Head.toInstr_eq_hlt_iff]
  constructor
  · rintro ⟨⟨op, m1, m2, m3⟩, hn, rfl⟩
    exact ⟨m1, m2, m3, by simpa [Head.number, Opcode.code] using hn⟩
  · rintro ⟨m1, m2, m3, hn⟩
    exact ⟨⟨.hlt, m1, m2, m3⟩, by simpa [Head.number, Opcode.code] using hn, rfl⟩

end Sys2Proof

namespace Sys2Proof.Machine
open Sys2Proof.Statements

/-! ## The conditional jumps (R100) -/

@[simp] theorem aluZero_eq_true {x : Word} : aluZero x = true ↔ x.val = 0 := decide_eq_true_iff

@[simp] theorem aluZero_eq_false {x : Word} : aluZero x = false ↔ x.val ≠ 0 := decide_eq_false_iff_not

/-- JNZ and JZ are the family rule of R100 over a test of the first operand. -/
theorem exec_eq_execJump {i : Instr} {a p : Param} (hi : i ∈ [Instr.jnz a p, Instr.jz a p]) (s : State) :
    ∃ taken, exec i s = execJump taken a p s := by
  simp only [List.mem_cons, List.not_mem_nil, or_false] at hi
  obtain rfl | rfl := hi
  · exact ⟨_, exec_jnz a p s⟩
  · exact ⟨_, exec_jz a p s⟩

section
variable {taken : Word → Bool} {s : State} {a p : Param} {x y : Word}

/-- A conditional jump whose operands resolve goes on to the check of its target, taken or not (R100, D8). -/
theorem execJump_of_operands (ha : readOperand s a = .ok x) (hp : readOperand s p = .ok y) :
    execJump taken a p s = conclude s (jumpTarget y >>= fun n =>
      complete (if taken x then { advance 3 s with pcNext := n } else advance 3 s) s) := by
  rw [execJump, operandsF2_eq_ok.mpr ⟨ha, hp⟩, except_ok_bind]

/-- A conditional jump that passes every check moves `pc`, and nothing else changes (R100, R107). -/
theorem execJump_of_fits {pc' : Addr} (ha : readOperand s a = .ok x) (hp : readOperand s p = .ok y) (hy : 0 ≤ y.val)
    (hjump : taken x = true → (pc'.val : Int) = y.val) (hnext : taken x = false → pc'.val = s.pc.val + 3) :
    execJump taken a p s = .next { s with pc := pc', status := .ready } := by
  have htarget : jumpTarget y = .ok y.val.toNat := jumpTarget_eq_ok.mpr (Int.toNat_of_nonneg hy)
  rw [execJump_of_operands ha hp, htarget, except_ok_bind]
  cases htaken : taken x with
  | true =>
    have hpc : pc'.val = y.val.toNat := by
      have := hjump htaken
      omega
    rw [if_pos rfl, complete_of_fits hpc (writeFits_none s), conclude_ok]
    rfl
  | false =>
    rw [if_neg (by decide), complete_of_fits (hnext htaken) (writeFits_none s), conclude_ok]
    rfl

/-- A negative target faults with the target as detail, taken or not (R100, R129 c, D8). -/
theorem execJump_of_negative_target (ha : readOperand s a = .ok x) (hp : readOperand s p = .ok y) (hy : y.val < 0) :
    execJump taken a p s = .next (faultedWith s .invalidAddress y.val) := by
  rw [execJump_of_operands ha hp, jumpTarget_eq_error.mpr ⟨hy, rfl⟩]
  rfl

end

/-- An ARB whose exact new base is no address faults with that sum as detail (R104, R129 d). -/
theorem execArb_of_outOfRange {s : State} {a : Param} {x : Word} (hx : readOperand s a = .ok x)
    (h : (s.rb.val : Int) + x.val < 0 ∨ (Config.addrMax : Int) < s.rb.val + x.val) :
    execArb a s = .next (faultedWith s .invalidAddress (s.rb.val + x.val)) := by
  rw [execArb, operandF1R, hx, except_ok_bind, aluAadd_eq_error.mpr ⟨h, rfl⟩]
  rfl

/-! ## Halting (R103) -/

/-- Whenever an instruction ends halted, it is `HLT`. -/
theorem exec_halts {i : Instr} {s t : State} (h : exec i s = .next t) (ht : t.status = .halted) :
    i = .hlt ∧ t = halt s := by
  obtain ⟨f, rfl⟩ | ⟨d, -, -, rfl⟩ | hhlt | ⟨e, -, hc⟩ := exec_cases h
  · cases ht
  · cases ht
  · exact hhlt
  · rw [complete_status hc] at ht
    cases ht

/-- Whenever a step ends halted, it fetched `HLT`. -/
theorem step_halts {s t : State} (h : step s = .next t) (ht : t.status = .halted) :
    fetch s = .ok .hlt ∧ t = halt s := by
  obtain ⟨-, ⟨e, -, rfl⟩ | ⟨i, hi, h⟩⟩ := step_cases h
  · cases ht
  · obtain ⟨rfl, rfl⟩ := exec_halts h ht
    exact ⟨hi, rfl⟩

theorem step_of_fetch {s : State} {i : Instr} (hs : s.status ≠ .faulted) (hi : fetch s = .ok i) : step s = exec i s := by
  rw [step_of_ne_faulted hs, hi]

/-- After a halt the same `HLT` is fetched, so that the next step halts again (R103, R119). -/
theorem step_halt {s : State} (hi : fetch s = .ok .hlt) : step (halt s) = .next (halt s) := by
  rw [step_of_fetch (s := halt s) nofun ((fetch_congr (halt_mem s) (halt_pc s)).trans hi), exec_hlt]
  rfl

/-! ## A step that only records `READY` (R111) -/

/-- What a step does it does again when only the record has changed. -/
theorem step_ready_of_step {s : State} (hs : s.status ≠ .faulted) (h : step s = .next { s with status := .ready }) :
    step { s with status := .ready } = .next { s with status := .ready } := by
  have hrecord := step_withRecord s .ready s.fault hs nofun
  rw [h] at hrecord
  exact hrecord

theorem runCommand_eq_none_of_step_self {s : State} (h : step s = .next s) (hs : s.status = .ready) (fuel : Nat) :
    runCommand fuel s = none := by
  induction fuel with
  | zero => rfl
  | succ fuel ih => rw [runCommand_of_ready h hs, ih]

theorem not_responds_run_of_step_ready {s : State} (hs : s.status ≠ .faulted)
    (h : step s = .next { s with status := .ready }) (r : Response) (t : State) : ¬ Responds .run s r t := by
  have hrun : ∀ fuel, runCommand fuel s = none := by
    rintro (_ | fuel)
    · rfl
    · rw [runCommand_of_ready h rfl, runCommand_eq_none_of_step_self (step_ready_of_step hs h) rfl]
  rintro ⟨fuel, hr⟩
  rw [transact_of_ne_faulted hs, perform, hrun] at hr
  cases hr

end Sys2Proof.Machine

/-! PROOFS. The statements of the family "control". -/

namespace Sys2Proof.Proofs
open Sys2Proof.Machine Sys2Proof.Statements

/-- Settles O22: JNZ is the family rule whose jump is taken when the zero test of operand 1 fails. -/
theorem jnzJumpsWhenNotZero : Obligations.JnzJumpsWhenNotZero := by
  intro s a t x y pc' ha ht hy hjump hnext
  rw [exec_jnz]
  exact execJump_of_fits ha ht hy (fun h => hjump (by simpa using h)) (fun h => hnext (by simpa using h))

/-- Settles O23: JZ is the family rule whose jump is taken when the zero test of operand 1 succeeds. -/
theorem jzJumpsWhenZero : Obligations.JzJumpsWhenZero := by
  intro s a t x y pc' ha ht hy hjump hnext
  rw [exec_jz]
  exact execJump_of_fits ha ht hy (fun h => hjump (aluZero_eq_true.mp h)) (fun h => hnext (aluZero_eq_false.mp h))

/-- Settles O24: the spellings are the numbers of HLT's heads, and a step that halts leaves `pc` and memory at its `HLT`. -/
theorem hltHaltsWithoutAdvancing : Obligations.HltHaltsWithoutAdvancing := by
  refine ⟨fun P => decodeFrom_eq_hlt_iff, exec_hlt, fun s t h ht => ?_⟩
  obtain ⟨hi, rfl⟩ := step_halts h ht
  exact ⟨rfl, hi, step_halt hi⟩

/-- Settles O34: the check of the target comes before the choice to jump, and ARB checks its exact sum. -/
theorem jumpTargetAndRelativeBaseFaults : Obligations.JumpTargetAndRelativeBaseFaults := by
  refine ⟨fun s a p x y i hi ha hp hy => ?_, fun s a x hx hout => ?_⟩
  · obtain ⟨taken, hexec⟩ := exec_eq_execJump hi s
    rw [hexec, execJump_of_negative_target ha hp hy]
  · rw [exec_arb, execArb_of_outOfRange hx hout]

/-- Settles O53: the taken jump leaves `pc` where it is, so that the step only records `READY` and then repeats itself. -/
theorem selfJumpMakesRunNeverRespond : Obligations.SelfJumpMakesRunNeverRespond := by
  intro s a p x y hs ha hp hy hjump
  have hy₀ : 0 ≤ y.val := hy ▸ Int.natCast_nonneg _
  have hstep : step s = .next { s with status := .ready } := by
    obtain ⟨hi, hx⟩ | ⟨hi, hx⟩ := hjump
    · rw [step_of_fetch hs hi]
      exact jnzJumpsWhenNotZero s a p x y s.pc ha hp hy₀ (fun _ => hy.symm) (fun h => absurd h hx)
    · rw [step_of_fetch hs hi]
      exact jzJumpsWhenZero s a p x y s.pc ha hp hy₀ (fun _ => hy.symm) (fun h => absurd hx h)
  exact ⟨hstep, not_responds_run_of_step_ready hs hstep⟩

end Sys2Proof.Proofs

/-! PROOFS. Shared lemmas of the family "relative_base": how ARB ends once its operand is there (R104). -/

namespace Sys2Proof.Machine

/-- An ARB whose operand resolves and whose exact new base is an address goes on to the check of `pc + 2` (R104). -/
theorem execArb_eq_conclude_complete {s : State} {a : Param} {x : Word} {r : Addr} (hx : readOperand s a = .ok x)
    (hr : (r.val : Int) = s.rb.val + x.val) :
    execArb a s = conclude s (complete { advance 2 s with rbNext := r } s) := by
  rw [execArb, operandF1R, hx, except_ok_bind, aluAadd_eq_ok.mpr hr, except_ok_bind]

end Sys2Proof.Machine

/-! PROOFS. The statements of the family "relative_base". -/

namespace Sys2Proof.Proofs
open Sys2Proof.Machine Sys2Proof.Statements

/-- Settles O25: ARB writes no Word of memory, so that once its exact sum is an address only `pc + 2` is left to check. -/
theorem arbAddsToTheRelativeBase : Obligations.ArbAddsToTheRelativeBase := by
  intro s a x rb' pc' hx hrb hpc
  rw [exec_arb, execArb_eq_conclude_complete hx hrb, complete_of_fits hpc (writeFits_none s), conclude_ok]
  rfl

end Sys2Proof.Proofs

/-! PROOFS. Shared lemmas of the family "host_interface": what commands and conversations keep, what a step does not read
(the recorded result, and input behind `INQ`), the steps of a `RUN`, how a program ends and what its output is, input in
chunks, and clones (R106 to R124). -/

namespace Sys2Proof.Machine
open Sys2Proof.Statements

/-! ## Conversations (R106) -/

/-- What every command keeps, a conversation keeps. -/
theorem Conversation.keeps {P : State → Prop} (hP : ∀ c s r t, P s → Responds c s r t → P t) {s t : State}
    {talk : List (Command × Response)} (h : Conversation s talk t) (hs : P s) : P t := by
  induction h with
  | nil => exact hs
  | cons hr _ ih => exact ih (hP _ _ _ _ hs hr)

/-! ## After a halt (R119) -/

/-- The states that differ from a halted one at most in the queues. -/
def EqButQueues (t u : State) : Prop := ∃ inq outq, u = { t with inq := inq, outq := outq }

/-- Whatever the queues hold, a state halted at its `HLT` halts again. -/
theorem EqButQueues.step_halt {s u : State} (h : EqButQueues (halt s) u) (hi : fetch s = .ok .hlt) :
    step u = .next u := by
  obtain ⟨inq, outq, rfl⟩ := h
  exact Machine.step_halt (s := { s with inq := inq, outq := outq }) hi

/-- Halted at its `HLT`, a state keeps all but its queues under every command. -/
theorem EqButQueues.responds {s u v : State} {c : Command} {r : Response} (h : EqButQueues (halt s) u)
    (hi : fetch s = .ok .hlt) (hr : Responds c u r v) : EqButQueues (halt s) v := by
  refine hr.keeps (P := EqButQueues (halt s)) (fun u v hu hstep => ?_) ?_ h
  · rw [hu.step_halt hi] at hstep
    cases hstep
    exact hu
  · rintro u inq outq ⟨-, -, rfl⟩
    exact ⟨inq, outq, rfl⟩

/-! ## A step always answers (R107, R108) -/

theorem exec_eq_conclude (i : Instr) (s : State) : ∃ x, exec i s = conclude s x := by
  cases i with
  | add | mul | inp | out | jnz | jz | lt | eq | arb => exact ⟨_, rfl⟩
  | hlt => exact ⟨.ok (halt s), rfl⟩

theorem exists_conclude_eq_next (s : State) (x : Except Fatal State) : ∃ t, conclude s x = .next t := by
  cases x with
  | ok t => exact ⟨t, rfl⟩
  | error f => exact ⟨_, rfl⟩

theorem exists_step_eq_next {s : State} (hs : s.status ≠ .faulted) : ∃ t, step s = .next t := by
  rw [step_of_ne_faulted hs]
  split
  · next i _ =>
    obtain ⟨x, hx⟩ := exec_eq_conclude i s
    exact hx ▸ exists_conclude_eq_next s x
  · exact ⟨_, rfl⟩

theorem stepCommand_of_faulted {s : State} (hs : s.status = .faulted) : stepCommand s = (.refused, s) := by
  rw [stepCommand, step_of_faulted hs]

/-! ## A step does not read the recorded result (R26, R120) -/

theorem step_fault_of_ne_faulted {s t : State} (h : step s = .next t) (ht : t.status ≠ .faulted) : t.fault = s.fault := by
  obtain ⟨st, f, rfl, -, hf⟩ | ⟨i, -, hc⟩ := step_onlyRecords_or_completes h
  · exact hf ht
  · exact hc.params_fault.2

/-- A step reads of `STATUS` only whether it is `FAULTED`. -/
theorem step_with_status {s : State} {st : Status} (hs : s.status ≠ .faulted) (hst : st ≠ .faulted) :
    step { s with status := st } = step s := by
  obtain ⟨t, ht⟩ := exists_step_eq_next hs
  have hcarry : t.carryFault s.fault = t := by
    unfold State.carryFault
    split
    · rfl
    · next hne => rw [← step_fault_of_ne_faulted ht hne]
  have hrecord := step_withRecord s st s.fault hs hst
  rw [ht, mapNext, hcarry] at hrecord
  exact hrecord.trans ht.symm

/-- A step that neither completes nor faults changes nothing but `STATUS` (R98, R103, R107 step 7). -/
theorem step_eq_with_status {s t : State} (h : step s = .next t) (hr : t.status ≠ .ready) (hf : t.status ≠ .faulted) :
    t = { s with status := t.status } := by
  obtain ⟨st, f, rfl, -, hfault⟩ | ⟨i, -, e, -, hc⟩ := step_onlyRecords_or_completes h
  · obtain rfl := hfault hf
    rfl
  · exact absurd (complete_status hc) hr

/-! ## The steps of a `RUN` (R110) -/

/-- Finitely many steps with the result `Continue` lead from `s` to a step with another result, which leaves `t`. -/
def RunsTo (s t : State) : Prop := ∃ u, Reaches s u ∧ step u = .next t ∧ t.status ≠ .ready

theorem runsTo_iff_of_ready {s v t : State} (h : step s = .next v) (hv : v.status = .ready) :
    RunsTo s t ↔ RunsTo v t := by
  constructor
  · rintro ⟨u, hreach, hu, ht⟩
    cases hreach with
    | refl =>
      cases h.symm.trans hu
      exact absurd hv ht
    | step hc hreach =>
      cases h.symm.trans hc.1
      exact ⟨u, hreach, hu, ht⟩
  · rintro ⟨u, hreach, hu, ht⟩
    exact ⟨u, .step ⟨h, hv⟩ hreach, hu, ht⟩

theorem runsTo_iff_of_ne_ready {s v t : State} (h : step s = .next v) (hv : v.status ≠ .ready) :
    RunsTo s t ↔ t = v := by
  constructor
  · rintro ⟨u, hreach, hu, -⟩
    cases hreach with
    | refl =>
      cases h.symm.trans hu
      rfl
    | step hc _ =>
      cases h.symm.trans hc.1
      exact absurd hc.2 hv
  · rintro rfl
    exact ⟨s, .refl s, h, hv⟩

theorem runsTo_iff_of_reaches {s u t : State} (h : Reaches s u) : RunsTo s t ↔ RunsTo u t := by
  induction h with
  | refl => rfl
  | step hc _ ih => exact (runsTo_iff_of_ready hc.1 hc.2).trans ih

/-- A `RUN` reads of the state it starts in only what its first step reads. -/
theorem runsTo_congr {s s' t : State} (hs : s.status ≠ .faulted) (h : step s' = step s) : RunsTo s' t ↔ RunsTo s t := by
  obtain ⟨v, hv⟩ := exists_step_eq_next hs
  by_cases hr : v.status = .ready
  · rw [runsTo_iff_of_ready hv hr, runsTo_iff_of_ready (h.trans hv) hr]
  · rw [runsTo_iff_of_ne_ready hv hr, runsTo_iff_of_ne_ready (h.trans hv) hr]

theorem RunsTo.unique {s t t' : State} (h : RunsTo s t) (h' : RunsTo s t') : t' = t := by
  obtain ⟨u, hreach, hu, ht⟩ := h
  exact (runsTo_iff_of_ne_ready hu ht).mp ((runsTo_iff_of_reaches hreach).mp h')

theorem RunsTo.ne_faulted {s t : State} (h : RunsTo s t) : s.status ≠ .faulted := by
  obtain ⟨u, hreach, hu, -⟩ := h
  cases hreach with
  | refl => exact (step_cases hu).1
  | step hc _ => exact (step_cases hc.1).1

/-- The fuel that is enough is the number of steps (log 10). -/
theorem exists_runCommand_iff {s t : State} {r : StepResult} (hs : s.status ≠ .faulted) :
    (∃ fuel, runCommand fuel s = some (r, t)) ↔ RunsTo s t ∧ r = recordedResult t := by
  constructor
  · rintro ⟨fuel, h⟩
    induction fuel generalizing s with
    | zero => cases h
    | succ fuel ih =>
      obtain ⟨v, hv⟩ := exists_step_eq_next hs
      by_cases hr : v.status = .ready
      · rw [runCommand_of_ready hv hr] at h
        rw [runsTo_iff_of_ready hv hr]
        exact ih (by simp [hr]) h
      · rw [runCommand_of_ne_ready hv hr] at h
        cases h
        exact ⟨(runsTo_iff_of_ne_ready hv hr).mpr rfl, rfl⟩
  · rintro ⟨⟨u, hreach, hu, ht⟩, rfl⟩
    induction hreach with
    | refl => exact ⟨1, runCommand_of_ne_ready hu ht 0⟩
    | step hc hreach ih =>
      obtain ⟨fuel, h⟩ := ih (by simp [hc.2]) hu
      exact ⟨fuel + 1, (runCommand_of_ready hc.1 hc.2 fuel).trans h⟩

/-- What `RUN` answers before a fault (R110). -/
theorem responds_run_iff {s t : State} {r : Response} (hs : s.status ≠ .faulted) :
    Responds .run s r t ↔ RunsTo s t ∧ r = .result (recordedResult t) := by
  constructor
  · rintro ⟨fuel, h⟩
    rw [transact_of_ne_faulted hs] at h
    obtain ⟨⟨r', t'⟩, hrun, he⟩ := Option.map_eq_some_iff.mp h
    obtain ⟨hto, rfl⟩ := (exists_runCommand_iff hs).mp ⟨fuel, hrun⟩
    cases he
    exact ⟨hto, resultResponse_recordedResult _⟩
  · rintro ⟨hto, rfl⟩
    obtain ⟨fuel, h⟩ := (exists_runCommand_iff hs).mpr ⟨hto, rfl⟩
    refine ⟨fuel, ?_⟩
    rw [transact_of_ne_faulted hs, perform, h, Option.map_some, resultResponse_recordedResult]

/-- What `STEP` answers before a fault (R107, R108). -/
theorem responds_step_iff {s t : State} {r : Response} (hs : s.status ≠ .faulted) :
    Responds .step s r t ↔ step s = .next t ∧ r = .result (recordedResult t) := by
  obtain ⟨v, hv⟩ := exists_step_eq_next hs
  have hv' : ∀ fuel, transact fuel .step s = some (.result (recordedResult v), v) := fun fuel => by
    rw [transact_of_ne_faulted hs, perform, stepCommand_of_next hv, resultResponse_recordedResult]
  rw [responds_iff_of_transact hv', hv]
  constructor
  · rintro ⟨rfl, rfl⟩
    exact ⟨rfl, rfl⟩
  · rintro ⟨⟨⟩, rfl⟩
    exact ⟨rfl, rfl⟩

/-- Only `STEP` and `RUN`, and only before a fault, answer a result. -/
theorem Responds.of_result {c : Command} {s t : State} {r : StepResult} (h : Responds c s (.result r) t) :
    s.status ≠ .faulted ∧ (c = .step ∨ c = .run) := by
  obtain ⟨fuel, h⟩ := h
  by_cases hs : s.status = .faulted
  · rw [transact_of_faulted hs] at h
    cases c <;> cases h
  · rw [transact_of_ne_faulted hs] at h
    cases c with
    | step => exact ⟨hs, .inl rfl⟩
    | run => exact ⟨hs, .inr rfl⟩
    | writePort | readPort | readExact | readAll | clone | readStatus | peek | peekLen | peekRegs => cases h

/-! ## How a program ends (R124) -/

@[simp] theorem recordedResult_eq_halted {t : State} : recordedResult t = .halted ↔ t.status = .halted := by
  unfold recordedResult
  split <;> simp [*]

@[simp] theorem recordedResult_eq_blocked {t : State} : recordedResult t = .blocked ↔ t.status = .blocked := by
  unfold recordedResult
  split <;> simp [*]

@[simp] theorem recordedResult_eq_fatal {t : State} : recordedResult t = .fatal t.fault ↔ t.status = .faulted := by
  unfold recordedResult
  split <;> simp [*]

theorem stepsTo_iff {st : Status} {s t : State} (hst : st ≠ .ready) : StepsTo st s t ↔ RunsTo s t ∧ t.status = st := by
  constructor
  · rintro ⟨u, hreach, hu, rfl⟩
    exact ⟨⟨u, hreach, hu, hst⟩, rfl⟩
  · rintro ⟨⟨u, hreach, hu, -⟩, ht⟩
    exact ⟨u, hreach, hu, ht⟩

/-- A step only appends to `OUTQ` (R96). -/
theorem step_outq_isPrefix {s t : State} (h : step s = .next t) : s.outq <+: t.outq := by
  obtain ⟨vs, ht⟩ := step_outq h
  exact ⟨vs, ht.symm⟩

theorem Reaches.outq_isPrefix {s u : State} (h : Reaches s u) : s.outq <+: u.outq := by
  induction h with
  | refl => exact ⟨[], List.append_nil _⟩
  | step hc _ ih => exact (step_outq_isPrefix hc.1).trans ih

theorem RunsTo.outq_isPrefix {s t : State} (h : RunsTo s t) : s.outq <+: t.outq := by
  obtain ⟨u, hreach, hu, -⟩ := h
  exact hreach.outq_isPrefix.trans (step_outq_isPrefix hu)

theorem enteredOutput_of_isPrefix {c : Command} (hc : c = .step ∨ c = .run) {s t : State} (h : s.outq <+: t.outq) :
    s.outq ++ enteredOutput c s t = t.outq := by
  obtain ⟨vs, hvs⟩ := h
  rw [enteredOutput_of_append hc hvs.symm, hvs]

theorem enteredOutput_self (c : Command) (s : State) : enteredOutput c s s = [] := by
  cases c with
  | step | run => exact List.drop_length
  | writePort | readPort | readExact | readAll | clone | readStatus | peek | peekLen | peekRegs => rfl

/-- After a fault no command hands out output (R135). -/
theorem performFaulted_outputRead (c : Command) (s : State) : (performFaulted c s).1.outputRead = [] := by
  cases c <;> rfl

/-- `READ_PORT` hands out what it pops (R113). -/
theorem readPort_outq (s : State) : (Response.port (readPort s).1).outputRead ++ (readPort s).2.outq = s.outq := by
  unfold readPort
  split
  · next hq => exact hq.symm ▸ rfl
  · next v vs hq => exact hq.symm ▸ rfl

/-- `READ_EXACT` hands out what it pops (R114). -/
theorem readExact_outq (n : Nat) (s : State) :
    (Response.exact (readExact n s).1).outputRead ++ (readExact n s).2.outq = s.outq := by
  unfold readExact
  split
  · exact List.take_append_drop n s.outq
  · rfl

/-- No command loses output: what was in `OUTQ` and what entered it is what the host was handed and what is in `OUTQ`. -/
theorem Responds.outq_balance {c : Command} {s t : State} {r : Response} (h : Responds c s r t) :
    s.outq ++ enteredOutput c s t = r.outputRead ++ t.outq := by
  by_cases hs : s.status = .faulted
  · obtain ⟨fuel, h⟩ := h
    simp only [transact_of_faulted hs, Option.some.injEq] at h
    obtain rfl : s = t := by rw [← performFaulted_state c s, h]
    have hr : r.outputRead = [] := by rw [← performFaulted_outputRead c s, h]
    rw [enteredOutput_self, hr, List.append_nil, List.nil_append]
  · cases c with
    | step =>
      obtain ⟨hstep, rfl⟩ := (responds_step_iff hs).mp h
      exact enteredOutput_of_isPrefix (.inl rfl) (step_outq_isPrefix hstep)
    | run =>
      obtain ⟨hrun, rfl⟩ := (responds_run_iff hs).mp h
      exact enteredOutput_of_isPrefix (.inr rfl) hrun.outq_isPrefix
    | readPort =>
      obtain ⟨fuel, h⟩ := h
      rw [transact_of_ne_faulted hs] at h
      cases h
      exact (List.append_nil _).trans (readPort_outq s).symm
    | readExact n =>
      obtain ⟨fuel, h⟩ := h
      rw [transact_of_ne_faulted hs] at h
      cases h
      exact (List.append_nil _).trans (readExact_outq n s).symm
    | writePort | readAll | clone | readStatus | peek | peekLen | peekRegs =>
      obtain ⟨fuel, h⟩ := h
      rw [transact_of_ne_faulted hs] at h
      cases h
      simp [enteredOutput, Response.outputRead, readAll]

section
variable {params : Config.Params} {program : List Word}

/-- The output is what the host has read followed by `OUTQ`. -/
theorem Session.output_eq {talk : List (Command × Response)} {s : State} {output : List Word}
    (h : Session params program talk s output) :
    output = talk.flatMap (fun cr => cr.2.outputRead) ++ s.outq := by
  induction h with
  | init => rfl
  | command _ hr ih => simp [ih, hr.outq_balance]

/-- The last command of a session. -/
theorem Session.exists_last {talk : List (Command × Response)} {c : Command} {r : Response} {t : State}
    {output : List Word} (h : Session params program (talk ++ [(c, r)]) t output) :
    ∃ s before, Session params program talk s before ∧ Responds c s r t ∧ output = before ++ enteredOutput c s t := by
  generalize htalk : talk ++ [(c, r)] = talk' at h
  cases h with
  | init => simp at htalk
  | command hs hr =>
    obtain ⟨rfl, hlast⟩ := List.append_inj' htalk rfl
    cases hlast
    exact ⟨_, _, hs, hr, rfl⟩

variable {st : Status} {r : StepResult} {t : State} (hst : st ≠ .ready) (hr : recordedResult t = r ↔ t.status = st)
include hst hr

theorem responds_run_iff_stepsTo {s : State} (hs : s.status ≠ .faulted) :
    Responds .run s (.result r) t ↔ StepsTo st s t := by
  rw [responds_run_iff hs, stepsTo_iff hst, Response.result.injEq, eq_comm (a := r), hr]

theorem Responds.stepsTo {c : Command} {s : State} (h : Responds c s (.result r) t) : StepsTo st s t := by
  obtain ⟨hs, rfl | rfl⟩ := h.of_result
  · obtain ⟨hstep, hres⟩ := (responds_step_iff hs).mp h
    exact ⟨s, .refl s, hstep, hr.mp (Response.result.inj hres).symm⟩
  · exact (responds_run_iff_stepsTo hst hr hs).mp h

/-- A step of the program's life, its own or the last of a `RUN`, ends with `r` exactly when finitely many steps lead to one
that does: the host can always issue that `RUN`. -/
theorem programReturns_iff_endsAfterSteps {output : List Word} :
    ProgramReturns r params program t output ↔ EndsAfterSteps st params program t output := by
  constructor
  · rintro ⟨talk, c, h⟩
    obtain ⟨s, before, hs, hresp, rfl⟩ := h.exists_last
    have hsteps := hresp.stepsTo hst hr
    refine ⟨talk, s, before, enteredOutput c s t, hs, hsteps, ?_, rfl⟩
    exact (enteredOutput_of_isPrefix hresp.of_result.2 ((stepsTo_iff hst).mp hsteps).1.outq_isPrefix).symm
  · rintro ⟨talk, s, before, added, hs, hsteps, hout, rfl⟩
    have hne : s.status ≠ .faulted := ((stepsTo_iff hst).mp hsteps).1.ne_faulted
    refine ⟨talk, .run, ?_⟩
    rw [← enteredOutput_of_append (.inr rfl) hout]
    exact hs.command ((responds_run_iff_stepsTo hst hr hne).mpr hsteps)

end

theorem endsWell_iff_endsAfterSteps {params : Config.Params} {program : List Word} {t : State} {output : List Word} :
    EndsWell params program t output ↔ EndsAfterSteps .halted params program t output :=
  programReturns_iff_endsAfterSteps (by decide) recordedResult_eq_halted

/-! ## Input behind `INQ` (R98, R122) -/

section
variable (ws : List Word) (s : State)

/-- Fault entry leaves `INQ` alone (R134). -/
theorem conclude_writePort (x : Except Fatal State) :
    conclude (writePort ws s) (x.map (writePort ws)) = mapNext (writePort ws) (conclude s x) := by
  cases x <;> rfl

/-- The commit pops the head that was there before, if it pops (R107 step 9). -/
theorem complete_writePort {e : Effects} (h : e.pop = true → s.inq ≠ []) :
    complete e (writePort ws s) = (complete e s).map (writePort ws) := by
  have hpop : popInput e.pop (s.inq ++ ws) = popInput e.pop s.inq ++ ws := by
    cases hp : e.pop with
    | false => rfl
    | true => exact List.tail_append_of_ne_nil (h hp)
  have hcommit (pc' : Addr) : commit e pc' (writePort ws s) = writePort ws (commit e pc' s) := by
    simp [commit, writePort, hpop]
  unfold complete
  split
  · rfl
  · rw [except_map_bind, hcommit]
    rfl

theorem execF3_writePort (g : Word → Word → Except Fatal Word) (a b d : Param) :
    execF3 g a b d (writePort ws s) = mapNext (writePort ws) (execF3 g a b d s) := by
  have hcomplete {dst r} := complete_writePort ws s (e := { advance 4 s with write := some (dst, r) }) nofun
  simp only [execF3, ← conclude_writePort, except_map_bind, ← hcomplete]
  rfl

theorem execJump_writePort (taken : Word → Bool) (a p : Param) :
    execJump taken a p (writePort ws s) = mapNext (writePort ws) (execJump taken a p s) := by
  have hcomplete {x n} := complete_writePort ws s
    (e := if taken x then { advance 3 s with pcNext := n } else advance 3 s) (by split <;> nofun)
  simp only [execJump, ← conclude_writePort, except_map_bind, ← hcomplete]
  rfl

theorem execOut_writePort (a : Param) : execOut a (writePort ws s) = mapNext (writePort ws) (execOut a s) := by
  have hcomplete {x} := complete_writePort ws s (e := { advance 2 s with push := some x }) nofun
  simp only [execOut, ← conclude_writePort, except_map_bind, ← hcomplete]
  rfl

theorem execArb_writePort (a : Param) : execArb a (writePort ws s) = mapNext (writePort ws) (execArb a s) := by
  have hcomplete {r} := complete_writePort ws s (e := { advance 2 s with rbNext := r }) nofun
  simp only [execArb, ← conclude_writePort, except_map_bind, ← hcomplete]
  rfl

/-- An IN that finds input takes the same Word, whatever lies behind it (R97). -/
theorem execIn_writePort {d : Param} (hq : s.inq ≠ []) :
    execIn d (writePort ws s) = mapNext (writePort ws) (execIn d s) := by
  obtain ⟨v, q, hvq⟩ := List.exists_cons_of_ne_nil hq
  have hcomplete {dst} := complete_writePort ws s
    (e := { advance 2 s with write := some (dst, v), pop := true }) fun _ => hq
  unfold execIn
  simp only [writePort_inq, hvq, List.cons_append, ← conclude_writePort, except_map_bind, ← hcomplete]
  rfl

end

/-- What an IN without input answers, unless it blocks, does not depend on the input: its target was refused. -/
theorem execIn_writePort_of_refused {s t : State} {d : Param} (hq : s.inq = []) (h : execIn d s = .next t)
    (ht : t.status ≠ .blocked) (ws : List Word) : execIn d (writePort ws s) = .next (writePort ws t) := by
  cases ho : operandF1W s d with
  | ok dst =>
    rw [execIn_of_inq_eq_nil (operandF1W_eq_ok.mp ho) hq] at h
    cases h
    exact absurd rfl ht
  | error f =>
    have ho' : operandF1W (writePort ws s) d = .error f := ho
    rw [execIn, ho] at h
    cases h
    rw [execIn, ho']
    rfl

/-- An instruction that does not block does the same whatever input lies behind `INQ`. -/
theorem exec_writePort {i : Instr} {s t : State} (h : exec i s = .next t) (ht : t.status ≠ .blocked) (ws : List Word) :
    exec i (writePort ws s) = .next (writePort ws t) := by
  cases i with
  | inp d =>
    by_cases hq : s.inq = []
    · exact execIn_writePort_of_refused hq h ht ws
    · rw [exec_inp, execIn_writePort ws s hq, ← exec_inp, h, mapNext]
  | add | mul | lt | eq =>
    simp only [exec_add, exec_mul, exec_lt, exec_eq] at h ⊢
    rw [execF3_writePort, h, mapNext]
  | jnz | jz =>
    simp only [exec_jnz, exec_jz] at h ⊢
    rw [execJump_writePort, h, mapNext]
  | out a => rw [exec_out, execOut_writePort, ← exec_out, h, mapNext]
  | arb a => rw [exec_arb, execArb_writePort, ← exec_arb, h, mapNext]
  | hlt =>
    cases h
    rfl

/-- So does a step. -/
theorem step_writePort {s t : State} (h : step s = .next t) (ht : t.status ≠ .blocked) (ws : List Word) :
    step (writePort ws s) = .next (writePort ws t) := by
  have hfetch : fetch (writePort ws s) = fetch s := rfl
  obtain ⟨hs, ⟨e, he, rfl⟩ | ⟨i, hi, h⟩⟩ := step_cases h
  · rw [step_of_ne_faulted (s := writePort ws s) hs, hfetch, he]
    rfl
  · rw [step_of_fetch (s := writePort ws s) hs (hfetch.trans hi)]
    exact exec_writePort h ht ws

theorem Reaches.writePort {s u : State} (h : Reaches s u) (ws : List Word) :
    Reaches (writePort ws s) (writePort ws u) := by
  induction h with
  | refl => exact .refl _
  | step hc _ ih => exact .step ⟨step_writePort hc.1 (by simp [hc.2]) ws, hc.2⟩ ih

/-! ## Input in chunks (R122) -/

/-- A `RUN` that responded without a fault can be forgotten: with more input, the next one ends where one `RUN` with all the
input would have ended. -/
theorem runsTo_writePort_iff {s t u : State} (h : RunsTo s t) (ht : t.status ≠ .faulted) (ws : List Word) :
    RunsTo (writePort ws t) u ↔ RunsTo (writePort ws s) u := by
  obtain ⟨v, hreach, hv, hr⟩ := h
  have hvs : v.status ≠ .faulted := (step_cases hv).1
  have heq : t = { v with status := t.status } := step_eq_with_status hv hr ht
  have hstep : step (writePort ws t) = step (writePort ws v) := by
    rw [heq]
    exact step_with_status (s := writePort ws v) hvs ht
  rw [runsTo_congr (s := writePort ws v) hvs hstep, runsTo_iff_of_reaches (hreach.writePort ws)]

/-- With less input a `RUN` responds too, and without a fault if it would have responded without one. -/
theorem exists_runsTo_of_writePort {s t : State} {ws : List Word} (h : RunsTo (writePort ws s) t)
    (ht : t.status ≠ .faulted) : ∃ u, RunsTo s u ∧ u.status ≠ .faulted := by
  obtain ⟨fuel, hrun⟩ := (exists_runCommand_iff h.ne_faulted).mpr ⟨h, rfl⟩
  induction fuel generalizing s with
  | zero => cases hrun
  | succ fuel ih =>
    have hs : s.status ≠ .faulted := h.ne_faulted
    obtain ⟨v, hv⟩ := exists_step_eq_next hs
    by_cases hready : v.status = .ready
    · have hv' := step_writePort hv (by simp [hready]) ws
      rw [runsTo_iff_of_ready hv' hready] at h
      rw [runCommand_of_ready hv' hready] at hrun
      obtain ⟨u, hu, hne⟩ := ih h hrun
      exact ⟨u, (runsTo_iff_of_ready hv hready).mpr hu, hne⟩
    · refine ⟨v, (runsTo_iff_of_ne_ready hv hready).mpr rfl, fun hf => ht ?_⟩
      have hv' := step_writePort hv (by simp [hf]) ws
      rw [runsTo_iff_of_ne_ready hv' hready] at h
      rw [h]
      exact hf

@[simp] theorem writePort_writePort (vs ws : List Word) (s : State) :
    writePort ws (writePort vs s) = writePort (vs ++ ws) s := by
  simp [writePort]

/-- However the input is split, the last `RUN` ends where one `RUN` with all the input ends. -/
theorem Feeds.runsTo {s t : State} {chunks : List (List Word)} (h : Feeds s chunks t) (hs : s.status ≠ .faulted) :
    RunsTo (writePort chunks.flatten s) t := by
  induction h with
  | @last s t vs r fuel hrun =>
    rw [List.flatten_cons, List.flatten_nil, List.append_nil]
    exact ((exists_runCommand_iff (s := writePort vs s) hs).mp ⟨fuel, hrun⟩).1
  | @more s t u vs r fuel rest hrun ht _ ih =>
    have hto := ((exists_runCommand_iff (s := writePort vs s) hs).mp ⟨fuel, hrun⟩).1
    rw [List.flatten_cons, ← writePort_writePort, ← runsTo_writePort_iff hto ht]
    exact ih ht

/-- If one `RUN` with all the input ends without a fault, every splitting of the input ends there. -/
theorem feeds_of_runsTo {s t : State} {vs : List Word} {rest : List (List Word)}
    (h : RunsTo (writePort (vs :: rest).flatten s) t) (ht : t.status ≠ .faulted) : Feeds s (vs :: rest) t := by
  induction rest generalizing s vs with
  | nil =>
    rw [List.flatten_cons, List.flatten_nil, List.append_nil] at h
    obtain ⟨fuel, hrun⟩ := (exists_runCommand_iff h.ne_faulted).mpr ⟨h, rfl⟩
    exact .last hrun
  | cons ws rest ih =>
    rw [List.flatten_cons, ← writePort_writePort] at h
    obtain ⟨u, hu, hne⟩ := exists_runsTo_of_writePort h ht
    obtain ⟨fuel, hrun⟩ := (exists_runCommand_iff hu.ne_faulted).mpr ⟨hu, rfl⟩
    exact .more hrun hne (ih ((runsTo_writePort_iff hu hne _).mpr h))

/-! ## `CLONE` (R116) -/

/-- What is added takes the slot behind the others. -/
theorem System.slot?_addInstance_length (sys : System) (t : State) :
    (sys.addInstance t).slot? sys.slots.length = some t := by
  simp [System.slot?, System.addInstance]

theorem System.lt_length_of_slot? {sys : System} {k : Nat} {s : State} (h : sys.slot? k = some s) :
    k < sys.slots.length := by
  by_contra hk
  simp [System.slot?, List.getElem?_eq_none (not_lt.mp hk)] at h

/-- Writing back the state a slot holds changes nothing. -/
theorem System.setInstance_self {sys : System} {k : Nat} {s : State} (h : sys.slot? k = some s) :
    sys.setInstance k (some s) = sys := by
  have hk : sys.slots[k]? = some (some s) := by
    simpa [System.slot?, Option.join_eq_some_iff] using h
  obtain ⟨hlt, hget⟩ := List.getElem?_eq_some_iff.mp hk
  rw [System.setInstance, ← hget, List.set_getElem_self]

/-- `CLONE` before a fault adds the copy to the system and changes nothing else (R116). -/
theorem System.act_clone {sys : System} {k : Nat} {s : State} (h : sys.slot? k = some s) (hs : s.status ≠ .faulted)
    (fuel : Nat) :
    sys.act fuel (.command k .clone) = some (some (.created (cloneState s)), sys.addInstance (cloneState s)) := by
  simp [System.act, h, transact_of_ne_faulted hs, perform, System.withCreated, System.setInstance_self h]

end Sys2Proof.Machine

/-! PROOFS. The statements of the family "host_interface". -/

namespace Sys2Proof.Proofs
open Sys2Proof.Machine Sys2Proof.Statements

/-- Settles O41: after the halt only the queues can change, and the next step halts at the same `HLT`. -/
theorem haltingIsStable : Obligations.HaltingIsStable := by
  intro s t u talk h ht htalk
  obtain ⟨hi, rfl⟩ := step_halts h ht
  have hu : EqButQueues (halt s) u := htalk.keeps (fun _ _ _ _ hv hr => hv.responds hi hr) ⟨_, _, rfl⟩
  have hstep := hu.step_halt hi
  obtain ⟨inq, outq, rfl⟩ := hu
  exact ⟨rfl, rfl, rfl, hstep, rfl⟩

/-- Settles O35: each instruction comes to the last two checks, of which that of the new `pc` is the first. -/
theorem pcPastTheLastAddressFaults : Obligations.PcPastTheLastAddressFaults := by
  refine ⟨fun s a b d x y dst ha hb hd hpc => ?_, fun s d dst hd hq hpc => ?_, fun s a p x y ha hp hy hpc => ?_,
    fun s a x rb' hx hrb hpc => ?_⟩
  · have faults {g : Word → Word → Except Fatal Word} {r : Word} (hr : g x y = .ok r) :
        execF3 g a b d s = .next (faultedWith s .invalidAddress (s.pc.val + 4)) := by
      rw [execF3_eq_conclude_complete ha hb hd hr]
      exact conclude_complete_of_pcNext hpc
    simp only [exec_add, exec_mul, exec_lt, exec_eq]
    exact ⟨fun h₀ h₁ => faults (r := ⟨_, h₀, h₁⟩) (toWord_eq_ok.mpr rfl),
      fun h₀ h₁ => faults (r := ⟨_, h₀, h₁⟩) (toWord_eq_ok.mpr rfl), faults rfl, faults rfl⟩
  · obtain ⟨v, q, hq⟩ := List.exists_cons_of_ne_nil hq
    rw [exec_inp, execIn_eq_conclude_complete hd hq]
    exact conclude_complete_of_pcNext hpc
  · have faults {taken : Word → Bool} (hx : taken x = false) :
        execJump taken a p s = .next (faultedWith s .invalidAddress (s.pc.val + 3)) := by
      rw [execJump_of_operands ha hp, jumpTarget_eq_ok.mpr (Int.toNat_of_nonneg hy), except_ok_bind,
        if_neg (Bool.eq_false_iff.mp hx)]
      exact conclude_complete_of_pcNext hpc
    rw [exec_jnz, exec_jz]
    exact ⟨fun hx => faults (by simp [hx]), fun hx => faults (aluZero_eq_false.mpr hx)⟩
  · rw [exec_arb, execArb_eq_conclude_complete hx hrb]
    exact conclude_complete_of_pcNext hpc

/-- Settles O40: a blocked step has changed nothing but `STATUS`, which the next step does not read. -/
theorem blockedStepResumes : Obligations.BlockedStepResumes := by
  intro s t h ht
  obtain ⟨hs, -⟩ := step_cases h
  have heq : t = { s with status := .blocked } := ht ▸ step_eq_with_status h (by simp [ht]) (by simp [ht])
  subst heq
  refine ⟨(step_with_status (st := .blocked) hs nofun).trans h, fun vs => ?_⟩
  exact step_with_status (s := writePort vs s) hs nofun

/-- Settles O42: every meaning concludes, and a conclusion is a next state. -/
theorem stepAlwaysAnswers : Obligations.StepAlwaysAnswers := by
  refine fun s => ⟨fun hs => ⟨step_of_faulted hs, stepCommand_of_faulted hs⟩, fun hs => ?_⟩
  obtain ⟨t, ht⟩ := exists_step_eq_next hs
  exact ⟨t, ht, stepCommand_of_next ht, recordedResult_ne_refused t⟩

/-- Settles O51: the fuel that is enough is the number of steps. -/
theorem runStepsUntilAnotherResult : Obligations.RunStepsUntilAnotherResult := by
  intro s t r hs
  rw [responds_run_iff hs, RunsTo]
  simp only [and_assoc, ← exists_and_right]

/-- Settles O52: a step with another result than `Continue` can be reached by a `RUN`, and no command loses output. -/
theorem runResponseSaysHowTheProgramEnded : Obligations.RunResponseSaysHowTheProgramEnded := by
  refine ⟨fun s t hs => ⟨?_, ?_, ?_⟩, fun params program => ⟨fun talk s output => Session.output_eq,
    fun t output => ⟨endsWell_iff_endsAfterSteps, ?_, ?_⟩, ?_, ?_⟩⟩
  · exact responds_run_iff_stepsTo (by decide) recordedResult_eq_halted hs
  · exact responds_run_iff_stepsTo (by decide) recordedResult_eq_blocked hs
  · exact responds_run_iff_stepsTo (by decide) recordedResult_eq_fatal hs
  · exact programReturns_iff_endsAfterSteps (by decide) recordedResult_eq_blocked
  · exact programReturns_iff_endsAfterSteps (by decide) recordedResult_eq_fatal
  · intro talk s before u t hs hreach hstep ht
    obtain ⟨-, rfl⟩ := step_halts hstep ht
    obtain ⟨added, hadded⟩ := hreach.outq_isPrefix
    refine ⟨rfl, added, hadded.symm, endsWell_iff_endsAfterSteps.mpr ?_⟩
    exact ⟨talk, s, before, added, hs, ⟨u, hreach, hstep, ht⟩, hadded.symm, rfl⟩
  · intro t output h
    obtain ⟨-, s, -, -, -, ⟨u, -, hstep, ht⟩, -, -⟩ := endsWell_iff_endsAfterSteps.mp h
    obtain ⟨hi, rfl⟩ := step_halts hstep ht
    exact ⟨hi, step_halt hi⟩

/-- Settles O54: the state in which a splitting ends is the one in which one `RUN` with all the input ends. -/
theorem inputChunkingDoesNotMatter : Obligations.InputChunkingDoesNotMatter := by
  intro s t chunks chunks' hs hne hflat hfeeds ht u
  have hto : RunsTo (writePort chunks'.flatten s) t := hflat ▸ hfeeds.runsTo hs
  constructor
  · exact fun hu => hto.unique (hu.runsTo hs)
  · rintro rfl
    obtain ⟨vs, rest, rfl⟩ := List.exists_cons_of_ne_nil hne
    exact feeds_of_runsTo hto (by simp [ht])

/-- Commands to one slot leave every other as it was. -/
theorem runs_slot?_of_commands {sys sys' : System} {xs : List HostAction} {j k : Nat} {s : State}
    (h : System.Runs sys xs sys') (hxs : ∀ x ∈ xs, ∃ c, x = .command k c) (hjk : j ≠ k) (hj : sys.slot? j = some s) :
    sys'.slot? j = some s := by
  induction h with
  | nil => exact hj
  | @cons _ _ _ fuel x rest r hact _ ih =>
    obtain ⟨c, rfl⟩ := hxs x List.mem_cons_self
    refine ih (fun y hy => hxs y (List.mem_cons_of_mem _ hy)) ?_
    exact instancesAreIsolated fuel _ _ _ r j s hact hj (fun c' => by simp [hjk.symm]) nofun

/-- Settles O56: the clone takes a slot of its own, and commands to one slot leave every other. -/
theorem cloneIsAValueDisjointCopy : Obligations.CloneIsAValueDisjointCopy := by
  intro fuel sys k s hk hs
  have hne : k ≠ sys.slots.length := (System.lt_length_of_slot? hk).ne
  have hsource : (sys.addInstance (cloneState s)).slot? k = some s := System.slot?_addInstance hk _
  have hclone := sys.slot?_addInstance_length (cloneState s)
  refine ⟨cloneState s, sys.addInstance (cloneState s), System.act_clone hk hs fuel, rfl, rfl, rfl, rfl, rfl, rfl, rfl,
    hsource, hclone, fun xs sys'' hruns => ⟨fun hxs => ?_, fun hxs => ?_⟩⟩
  · exact runs_slot?_of_commands hruns hxs hne hsource
  · exact runs_slot?_of_commands hruns hxs hne.symm hclone

/-- Settles O6: the fetch reads the four Words from `pc` on. -/
theorem stepRunsTheDecodedInstruction : Obligations.StepRunsTheDecodedInstruction :=
  fun s _ hs hi => step_of_fetch hs ((fetch_eq_decode_wordsAtPc s).trans hi)

/-- Settles O47: the answer of `WRITE_PORT` depends on no condition. -/
theorem writePortAppendsInOrder : Obligations.WritePortAppendsInOrder :=
  fun _ _ r t hs => responds_iff_of_transact (fun fuel => transact_of_ne_faulted hs fuel _) r t

/-- Settles O48, by the two forms of `OUTQ`. -/
theorem readPortPopsTheHead : Obligations.ReadPortPopsTheHead := by
  refine fun s hs => ⟨fun v q hq r t => ?_, fun hq r t => ?_⟩
  · refine responds_iff_of_transact (fun fuel => ?_) r t
    rw [transact_of_ne_faulted hs, perform, readPort, hq]
  · refine responds_iff_of_transact (fun fuel => ?_) r t
    rw [transact_of_ne_faulted hs, perform, readPort, hq]

/-- Settles O49, by the one comparison of `n` with the length of `OUTQ`. -/
theorem readExactIsAllOrNothing : Obligations.ReadExactIsAllOrNothing := by
  refine fun s n hs => ⟨fun vs q hq hn r t => ?_, fun hn r t => ?_⟩
  · refine responds_iff_of_transact (fun fuel => ?_) r t
    subst hn
    rw [transact_of_ne_faulted hs, perform, readExact, if_pos (by simp [hq])]
    simp [hq]
  · refine responds_iff_of_transact (fun fuel => ?_) r t
    rw [transact_of_ne_faulted hs, perform, readExact, if_neg (by omega)]

/-- Settles O50: the answer of `READ_ALL` depends on no condition. -/
theorem readAllDrainsTheQueue : Obligations.ReadAllDrainsTheQueue :=
  fun _ hs r t => responds_iff_of_transact (fun fuel => transact_of_ne_faulted hs fuel _) r t

end Sys2Proof.Proofs

/-! PROOFS. Shared lemmas of the family "exceptions": what operand resolution makes of an Immediate write target and of
a bad address, whatever else holds (R128, R129, R133), and the answers after a fault (R135). -/

namespace Sys2Proof.Machine
open Sys2Proof.Statements

/-! ## An operand that does not resolve ends the instruction (R133, R134) -/

section
variable {s : State} {f : Fatal}

theorem execF3_of_operands_error {g : Word → Word → Except Fatal Word} {a b d : Param}
    (h : operandsF3 s a b d = .error f) : execF3 g a b d s = .next (faultEntry f s) := by
  rw [execF3, h, except_error_bind, conclude_error]

theorem execJump_of_operands_error {taken : Word → Bool} {a p : Param} (h : operandsF2 s a p = .error f) :
    execJump taken a p s = .next (faultEntry f s) := by
  rw [execJump, h, except_error_bind, conclude_error]

/-- The target is resolved before `INQ` is looked at, so that this holds of an empty queue too (D10). -/
theorem execIn_of_operand_error {d : Param} (h : operandF1W s d = .error f) : execIn d s = .next (faultEntry f s) := by
  rw [execIn, h, except_error_bind, conclude_error]

theorem execArb_of_operand_error {a : Param} (h : readOperand s a = .error f) :
    execArb a s = .next (faultEntry f s) := by
  rw [execArb, operandF1R, h, except_error_bind, conclude_error]

end

/-! ## Immediate write targets (R128) -/

theorem wellFormed_eq_false_iff {i : Instr} :
    i.wellFormed = false ↔ ∃ k d, writeParam? i = some (k, d) ∧ d.mode = .immediate := by
  have isWriteTarget_iff (d : Param) : d.isWriteTarget = false ↔ d.mode = .immediate := by
    unfold Param.isWriteTarget
    cases d.mode <;> decide
  cases i with
  | add | mul | inp | lt | eq => simp [Instr.wellFormed, writeParam?, isWriteTarget_iff]
  | out | jnz | jz | arb | hlt => simp [Instr.wellFormed, writeParam?]

/-- The write-target check is the first of an instruction (R107 step 4), so that no other condition matters. -/
theorem exec_of_immediate_writeParam? {i : Instr} {k : Nat} {d : Param} (hw : writeParam? i = some (k, d))
    (hd : d.mode = .immediate) (s : State) : exec i s = .next (faultEntry (.invalidWriteTarget k) s) := by
  cases i with
  | add | mul | lt | eq =>
    cases hw
    simp only [exec_add, exec_mul, exec_lt, exec_eq]
    exact execF3_of_operands_error (operandsF3_eq_error.mpr (.inl ⟨hd, rfl⟩))
  | inp =>
    cases hw
    exact execIn_of_operand_error (operandF1W_eq_error.mpr (.inl ⟨hd, rfl⟩))
  | out | jnz | jz | arb | hlt => cases hw

section
variable {s : State} {k : Nat}

theorem readAddr_ne_invalidWriteTarget {p : Param} : readAddr s p ≠ .error (.invalidWriteTarget k) := by
  intro h
  obtain ⟨z, hz⟩ := readAddr_error h
  cases hz

theorem writeAddr_eq_invalidWriteTarget {j : Nat} {p : Param} :
    writeAddr s j p = .error (.invalidWriteTarget k) ↔ p.mode = .immediate ∧ k = j := by
  simp [writeAddr_eq_error]

theorem operandsF3_eq_invalidWriteTarget {a b d : Param} :
    operandsF3 s a b d = .error (.invalidWriteTarget k) ↔ d.mode = .immediate ∧ k = 3 := by
  simp +contextual [operandsF3_eq_error, readAddr_ne_invalidWriteTarget, writeAddr_eq_invalidWriteTarget]

theorem complete_ne_invalidWriteTarget {e : Effects} : complete e s ≠ .error (.invalidWriteTarget k) := by
  simp [complete_eq_error]

/-- Only the write-target check raises `InvalidWriteTarget`; in particular no check of a jump target does. -/
theorem Raises.exists_immediate_writeParam? {i : Instr} (h : Raises i s (.invalidWriteTarget k)) :
    ∃ d, writeParam? i = some (k, d) ∧ d.mode = .immediate := by
  cases i with
  | add a b d | mul a b d =>
    obtain h | ⟨x, y, dst, -, h | ⟨r, h⟩⟩ := h
    · obtain ⟨hd, rfl⟩ := operandsF3_eq_invalidWriteTarget.mp h
      exact ⟨d, rfl, hd⟩
    · cases (toWord_eq_error.mp h).2
    · exact absurd h complete_ne_invalidWriteTarget
  | lt a b d | eq a b d =>
    obtain h | ⟨x, y, dst, -, r, h⟩ := h
    · obtain ⟨hd, rfl⟩ := operandsF3_eq_invalidWriteTarget.mp h
      exact ⟨d, rfl, hd⟩
    · exact absurd h complete_ne_invalidWriteTarget
  | inp d =>
    obtain h | ⟨dst, v, q, -, -, h⟩ := h
    · obtain ⟨hd, hk⟩ | ⟨hne, h⟩ := operandF1W_eq_error.mp h
      · cases hk
        exact ⟨d, rfl, hd⟩
      · exact absurd (writeAddr_eq_invalidWriteTarget.mp h).1 hne
    · exact absurd h complete_ne_invalidWriteTarget
  | out a =>
    obtain h | ⟨x, -, h⟩ := h
    · exact absurd (readOperand_eq_error.mp h) readAddr_ne_invalidWriteTarget
    · exact absurd h complete_ne_invalidWriteTarget
  | jnz a p | jz a p =>
    obtain h | ⟨x, y, -, h | ⟨n, -, h⟩⟩ := h
    · obtain h | ⟨-, h⟩ := operandsF2_eq_error.mp h
      · exact absurd h readAddr_ne_invalidWriteTarget
      · exact absurd h readAddr_ne_invalidWriteTarget
    · cases (jumpTarget_eq_error.mp h).2
    · exact absurd h complete_ne_invalidWriteTarget
  | arb a =>
    obtain h | ⟨x, -, h | ⟨r, h⟩⟩ := h
    · exact absurd (readOperand_eq_error.mp h) readAddr_ne_invalidWriteTarget
    · cases (aluAadd_eq_error.mp h).2
    · exact absurd h complete_ne_invalidWriteTarget
  | hlt => exact h.elim

end

theorem exists_exec_eq_next (i : Instr) (s : State) : ∃ t, exec i s = .next t := by
  obtain ⟨x, hx⟩ := exec_eq_conclude i s
  exact hx ▸ exists_conclude_eq_next s x

/-! ## Bad addresses, in parameter order (R129, R133 item 4) -/

section
variable {s : State} {a b d p : Param} {z : Int}

theorem readAddr_of_badAddress (h : BadAddress s p z) : readAddr s p = .error (.invalidAddress z) :=
  readAddr_eq_error.mpr ⟨z, h, rfl⟩

theorem exists_readAddr_of_goodAddress (h : GoodAddress s p) : ∃ o, readAddr s p = .ok o := by
  obtain ⟨x, hx⟩ := exists_readOperand_of_goodAddress h
  obtain ⟨o, ho, -⟩ := readOperand_eq_ok.mp hx
  exact ⟨o, ho⟩

theorem mode_ne_immediate_of_badAddress (h : BadAddress s p z) : p.mode ≠ .immediate := by
  intro hp
  simp [BadAddress, exactAddress, hp] at h

theorem operandsF3_of_badAddress (hd : d.mode ≠ .immediate)
    (h : BadAddress s a z ∨ (GoodAddress s a ∧ BadAddress s b z) ∨
      (GoodAddress s a ∧ GoodAddress s b ∧ BadAddress s d z)) :
    operandsF3 s a b d = .error (.invalidAddress z) := by
  refine operandsF3_eq_error.mpr (.inr ⟨hd, ?_⟩)
  obtain ha | ⟨ha, hb⟩ | ⟨ha, hb, hd⟩ := h
  · exact .inl (readAddr_of_badAddress ha)
  · exact .inr ⟨exists_readAddr_of_goodAddress ha, .inl (readAddr_of_badAddress hb)⟩
  · exact .inr ⟨exists_readAddr_of_goodAddress ha,
      .inr ⟨exists_readAddr_of_goodAddress hb, writeAddr_of_badAddress hd 3⟩⟩

theorem operandsF2_of_badAddress (h : BadAddress s a z ∨ (GoodAddress s a ∧ BadAddress s p z)) :
    operandsF2 s a p = .error (.invalidAddress z) := by
  refine operandsF2_eq_error.mpr ?_
  obtain ha | ⟨ha, hp⟩ := h
  · exact .inl (readAddr_of_badAddress ha)
  · exact .inr ⟨exists_readAddr_of_goodAddress ha, readAddr_of_badAddress hp⟩

theorem operandF1W_of_badAddress (h : BadAddress s d z) : operandF1W s d = .error (.invalidAddress z) :=
  operandF1W_eq_error.mpr (.inr ⟨mode_ne_immediate_of_badAddress h, writeAddr_of_badAddress h 1⟩)

end

/-! ## After a fault (R135) -/

theorem performFaulted_of_ne_readStatus {c : Command} (h : c ≠ .readStatus) (s : State) :
    (performFaulted c s).1 = .refused := by
  cases c with
  | readStatus => exact absurd rfl h
  | writePort | readPort | readExact | readAll | step | run | clone | peek | peekLen | peekRegs => rfl

theorem performFaulted_readStatus {s : State} (hs : s.status = .faulted) :
    (performFaulted .readStatus s).1 = .status .faulted (some s.fault) := by
  rw [performFaulted, readableFault_of_faulted hs, hs]

theorem responds_iff_of_faulted {c : Command} {s t : State} {r : Response} (hs : s.status = .faulted) :
    Responds c s r t ↔ r = (performFaulted c s).1 ∧ t = s := by
  refine responds_iff_of_transact (fun fuel => ?_) r t
  rw [transact_of_faulted hs]
  exact congrArg some (Prod.ext rfl (performFaulted_state c s))

/-- In a conversation that begins after a fault each answer is the one of that state, which is never left. -/
theorem Conversation.of_faulted {s t : State} {talk : List (Command × Response)} (h : Conversation s talk t)
    (hs : s.status = .faulted) : t = s ∧ ∀ cr ∈ talk, cr.2 = (performFaulted cr.1 s).1 := by
  induction h with
  | nil => exact ⟨rfl, by simp⟩
  | cons hr _ ih =>
    obtain ⟨rfl, rfl⟩ := (responds_iff_of_faulted hs).mp hr
    obtain ⟨rfl, hrest⟩ := ih hs
    exact ⟨rfl, List.forall_mem_cons.mpr ⟨rfl, hrest⟩⟩

end Sys2Proof.Machine

/-! PROOFS. The statements of the family "exceptions". -/

namespace Sys2Proof.Proofs
open Sys2Proof.Machine Sys2Proof.Statements

/-- Settles O29: the write-target check raises it before anything else can, and nothing else raises it. -/
theorem invalidWriteTargetExactlyForImmediateTargets : Obligations.InvalidWriteTargetExactlyForImmediateTargets := by
  intro i s
  obtain ⟨t, ht⟩ := exists_exec_eq_next i s
  refine ⟨t, ht, fun ⟨hst, hk⟩ => ?_, fun hwf => ?_⟩
  · obtain ⟨f, rfl, hf⟩ := exec_raises ht hst
    cases f with
    | invalidWriteTarget k => exact wellFormed_eq_false_iff.mpr ⟨k, hf.exists_immediate_writeParam?⟩
    | invalidOpcode | invalidAddress | arithmeticOverflow | capacityExceeded => cases hk
  · obtain ⟨k, d, hw, hd⟩ := wellFormed_eq_false_iff.mp hwf
    cases (exec_of_immediate_writeParam? hw hd s).symm.trans ht
    exact ⟨rfl, rfl⟩

/-- Settles O31: operand resolution stops at the first bad address, and the instruction ends there. -/
theorem addressFaultsComeInParameterOrder : Obligations.AddressFaultsComeInParameterOrder := by
  refine ⟨fun s a b d i z hd hi h => ?_, fun s a p i z hi h => ?_, fun s a i z hi h => ?_⟩
  · obtain ⟨g, hg⟩ := exec_eq_execF3 hi s
    exact hg.trans (execF3_of_operands_error (operandsF3_of_badAddress hd h))
  · obtain ⟨taken, hexec⟩ := exec_eq_execJump hi s
    exact hexec.trans (execJump_of_operands_error (operandsF2_of_badAddress h))
  · simp only [List.mem_cons, List.not_mem_nil, or_false] at hi
    obtain rfl | rfl | rfl := hi
    · exact execIn_of_operand_error (operandF1W_of_badAddress h)
    · exact execOut_of_badAddress h
    · exact execArb_of_operand_error (readOperand_of_badAddress h)

/-- Settles O38, by induction on the conversation: the state after each answer is the same faulted one. -/
theorem faultedInstanceRefusesForEver : Obligations.FaultedInstanceRefusesForEver := by
  intro s t talk hs htalk
  obtain ⟨hts, hanswers⟩ := htalk.of_faulted hs
  refine ⟨hts, step_of_faulted hs, fun cr hcr => ⟨fun hc => ?_, fun hc => ?_⟩⟩
  · rw [hanswers cr hcr, hc, performFaulted_readStatus hs]
  · rw [hanswers cr hcr, performFaulted_of_ne_readStatus hc]

/-- Settles O30: the write-target check is the first, and its detail is the parameter's number. -/
theorem immediateWriteTargetRecord : Obligations.ImmediateWriteTargetRecord := by
  refine ⟨fun s a b d i hd hi => ?_, fun s d hd => exec_of_immediate_writeParam? (k := 1) rfl hd s⟩
  have hw : writeParam? i = some (3, d) := by
    simp only [List.mem_cons, List.not_mem_nil, or_false] at hi
    obtain rfl | rfl | rfl | rfl := hi <;> rfl
  exact exec_of_immediate_writeParam? hw hd s

end Sys2Proof.Proofs
